-- ==== Sys2Proof/Word.lean ====
section
/-! DEFINITION. The two word types of the machine. -/

namespace Sys2Proof

/-- A 32-bit cell: a data memory cell, a stack cell, an I/O value, `data_address`, `pc` or an `arg`.
It is the two's-complement bit pattern of R8; `BitVec.toInt` is the signed value the spec speaks of, so
the range `[-2^31, 2^31-1]` of R14, R17, R22 and R98 holds by the type. -/
abbrev Word := BitVec 32

/-- One instruction word of format `W40` (R49): `op` in bits 39:32, `arg` in bits 31:0. -/
abbrev CodeWord := BitVec 40

/-- The largest signed 32-bit value, `2^31 - 1`. -/
def maxWord : Nat := 2147483647

end Sys2Proof
end

