-- ==== Sys2Proof/Config.lean ====
section
/-! DEFINITION. What the source fixes (R5), and the launch values that `State.reset` uses where the source
gives none. -/

namespace Sys2Proof.Config

/-- `INPUT_PORT = 0` (R5, R32). -/
def inputPort : Word := 0#32

/-- `OUTPUT_PORT = 1` (R5, R32). -/
def outputPort : Word := 1#32

/-- The stack's initial cell value, `-1` (R5, R14). -/
def stackSentinel : Word := BitVec.ofInt 32 (-1)

/-- The initial stack pointer, `-1`: empty (R5, R15). -/
def initialSp : Int := -1

/-- The ALU's division-by-zero sentinel, `-1` (R5, R76). -/
def divByZeroSentinel : Word := BitVec.ofInt 32 (-1)

/-- `STACK_CAPACITY` of `State.reset`. DESIGN CHOICE (log 2), unsafe: the source gives no default (D17);
4 is the value the vectors of 95_test_vectors.md take unless they state another. -/
def resetCapacity : Nat := 4

/-- `TICK_LIMIT` of `State.reset`. DESIGN CHOICE (log 2), unsafe: the source gives no default (D17);
95_test_vectors.md says only "large". -/
def resetTickLimit : Nat := 1000000

/-- The default `PRINTABLE_LO` of the host's rendering (R128). DESIGN CHOICE of the spec, D16 (log 21). -/
def printableLo : Int := 32

/-- The default `PRINTABLE_HI` of the host's rendering (R128). DESIGN CHOICE of the spec, D16 (log 21). -/
def printableHi : Int := 126

end Sys2Proof.Config
end

