-- ==== Sys2Proof/Syntax.lean ====
section
/-! DEFINITION. Instructions as terms (R51), the record form of an instruction (R46) and the elements of a
machine image (R47). -/

namespace Sys2Proof

/-- One constructor per row of the opcode table (R51). `arg` is the 32-bit signed argument of R50; the
no-argument opcodes have none, so the arity of R52 holds by the type. -/
inductive Instr where
  /-- HALT (R83). -/
  | halt
  /-- JUMP arg (R84). -/
  | jump (arg : Word)
  /-- JZ arg (R85). -/
  | jz (arg : Word)
  /-- PUSH arg (R86). -/
  | push (arg : Word)
  /-- PUSH2 arg (R87). -/
  | push2 (arg : Word)
  /-- POP (R88). -/
  | pop
  /-- DUP (R89). -/
  | dup
  /-- DROP (R90). -/
  | drop
  /-- LOAD (R91). -/
  | load
  /-- INC (R94). -/
  | inc
  /-- ADD (R95). -/
  | add
  /-- DIV (R96). -/
  | div
  /-- MOD (R97). -/
  | mod
  /-- NUMBER, declarative, never executed (R53). -/
  | number (arg : Word)
  /-- STRING, declarative, never executed (R53). -/
  | string (arg : Word)
  /-- BUFFER, declarative, never executed (R53). -/
  | buffer (arg : Word)
  deriving DecidableEq, Repr

/-- The sixteen mnemonics of R51. -/
inductive Opcode where
  | HALT | JUMP | JZ | PUSH | PUSH2 | POP | DUP | DROP | LOAD | INC | ADD | DIV | MOD
  | NUMBER | STRING | BUFFER
  deriving DecidableEq, Repr

/-- The operations of the ALU (R76). -/
inductive AluOp where
  | add
  | div
  | mod
  deriving DecidableEq, Repr

/-- Why the codec raises DecodeFault (R52, R54, R55). -/
inductive DecodeError where
  /-- Wrong argument arity (R52). -/
  | arity
  /-- Unrecognised mnemonic or `op` value (R54). -/
  | unrecognised
  deriving DecidableEq, Repr

/-- What stands in one field of a raw record before it is checked: nothing (absent or null), an integer, or
text (R46). -/
inductive Field where
  | missing
  | int (v : Int)
  | text (s : String)
  deriving DecidableEq, Repr

/-- One raw instruction record of the machine-code file: `index` (informational), `opcode` (mnemonic text)
and `arg` (integer, or absent/null) (R46). -/
structure Record where
  index : Field
  opcode : Field
  arg : Field
  deriving DecidableEq, Repr

/-- One element of the image's sequence: "either a raw 32-bit signed integer (data segment) or a record"
(R46, R47). The range of the integer is checked, not assumed (R122). -/
inductive Element where
  | cell (v : Int)
  | record (r : Record)
  deriving DecidableEq, Repr

/-- The machine image: "a single ordered sequence" (R47). -/
abbrev Image := List Element

end Sys2Proof
end

