-- ==== Sys2Proof/WellFormed.lean ====
section
/-! DEFINITION. Well-formedness of what the host hands to the machine: code words (R52, R54), raw records and
image elements (R122). A term of `Instr` needs no check: the range of `arg` (R50) is its type and the arity
(R52) its constructor. -/

namespace Sys2Proof

/-- `op = bits[39:32]` of a word (R49). -/
def CodeWord.opNumber (w : CodeWord) : Nat := w.toNat / 4294967296

/-- The `arg` field, `bits[31:0]` of a word, is all zero (R52). -/
def CodeWord.argIsZero (w : CodeWord) : Bool := w.toNat % 4294967296 == 0

/-- The `op` values that take no argument: HALT and POP to MOD (R51, R52). -/
def opTakesNoArg (op : Nat) : Bool := op == 0 || (5 ≤ op && op ≤ 12)

/-- A word the codec accepts: an assigned `op` (R54), and an all-zero `arg` field where the opcode takes none
(R52). -/
def CodeWord.wellFormed (w : CodeWord) : Bool :=
  decide (w.opNumber ≤ 15) && (!opTakesNoArg w.opNumber || w.argIsZero)

/-- A value a 32-bit signed cell can hold (R8). -/
def inCellRange (v : Int) : Bool := decide (-2147483648 ≤ v) && decide (v ≤ 2147483647)

/-- R122(c), the field `index`: "an integer, not otherwise checked". -/
def Record.indexOk (r : Record) : Bool :=
  match r.index with
  | .int _ => true
  | .missing => false
  | .text _ => false

/-- R122(c), the field `opcode`: "a string". -/
def Record.opcodeOk (r : Record) : Bool :=
  match r.opcode with
  | .text _ => true
  | .missing => false
  | .int _ => false

/-- R122(c), the field `arg`: an integer in `[-2^31, 2^31-1]`, or absent/null, "and no symbolic name". -/
def Record.argOk (r : Record) : Bool :=
  match r.arg with
  | .missing => true
  | .int v => inCellRange v
  | .text _ => false

/-- R122(c): the shape of one instruction record. -/
def Record.wellFormed (r : Record) : Bool := r.indexOk && r.opcodeOk && r.argOk

/-- R122(b): an element of the data segment, an integer in `[-2^31, 2^31-1]`. -/
def Element.dataOk : Element → Bool
  | .cell v => inCellRange v
  | .record _ => false

/-- R122(c): an element from `L + 1` on, a record of the right shape. -/
def Element.codeOk : Element → Bool
  | .cell _ => false
  | .record r => r.wellFormed

/-- R122: the image has exactly the shape of R47, checks (a) to (d). -/
def Image.wellFormed : Image → Bool
  | .cell len :: rest =>
      decide (0 ≤ len) && decide (len ≤ maxWord) && decide (len.toNat ≤ rest.length)
        && (rest.take len.toNat).all Element.dataOk
        && (rest.drop len.toNat).all Element.codeOk
        && decide ((rest.drop len.toNat).length ≤ maxWord)
  | .record _ :: _ => false
  | [] => false

end Sys2Proof
end

