-- ==== Sys2Proof/Decode.lean ====
section
/-! DEFINITION. The codec: the binary form W40 (R49 to R56) and the record form (R46, R52), each with its
decoder, total, and its encoder. -/

namespace Sys2Proof

/-! ## The binary form -/

/-- `op = bits[39:32]` (R49). -/
def opField (w : CodeWord) : BitVec 8 := w.extractLsb' 32 8

/-- `arg = sext_32(bits[31:0])` (R50): the 32 bits, read as signed by `BitVec.toInt`. -/
def argField (w : CodeWord) : Word := w.extractLsb' 0 32

/-- A no-argument opcode: "if bits[31:0] of w != 0: return DecodeFault(arity)" (R52, R55). -/
def decodeNoArg (a : Word) (i : Instr) : Except DecodeError Instr :=
  if a = 0#32 then .ok i else .error .arity

/-- The decoder of R55 on the two fields of a word. -/
def decodeFields (op : BitVec 8) (a : Word) : Except DecodeError Instr :=
  match op.toNat with
  | 0 => decodeNoArg a .halt
  | 1 => .ok (.jump a)
  | 2 => .ok (.jz a)
  | 3 => .ok (.push a)
  | 4 => .ok (.push2 a)
  | 5 => decodeNoArg a .pop
  | 6 => decodeNoArg a .dup
  | 7 => decodeNoArg a .drop
  | 8 => decodeNoArg a .load
  | 9 => decodeNoArg a .inc
  | 10 => decodeNoArg a .add
  | 11 => decodeNoArg a .div
  | 12 => decodeNoArg a .mod
  | 13 => .ok (.number a)
  | 14 => .ok (.string a)
  | 15 => .ok (.buffer a)
  | _ => .error .unrecognised

/-- The decoder, total on every 40-bit word (R55). -/
def decode (w : CodeWord) : Except DecodeError Instr := decodeFields (opField w) (argField w)

/-- The opcode number of an instruction (R51; the numbers are the spec's decision D2). -/
def opNumberOf : Instr → BitVec 8
  | .halt => 0#8
  | .jump _ => 1#8
  | .jz _ => 2#8
  | .push _ => 3#8
  | .push2 _ => 4#8
  | .pop => 5#8
  | .dup => 6#8
  | .drop => 7#8
  | .load => 8#8
  | .inc => 9#8
  | .add => 10#8
  | .div => 11#8
  | .mod => 12#8
  | .number _ => 13#8
  | .string _ => 14#8
  | .buffer _ => 15#8

/-- The `arg` field of an instruction's word, all zero where the opcode takes none (R49, R52). -/
def argOf : Instr → Word
  | .jump a => a
  | .jz a => a
  | .push a => a
  | .push2 a => a
  | .number a => a
  | .string a => a
  | .buffer a => a
  | .halt => 0#32
  | .pop => 0#32
  | .dup => 0#32
  | .drop => 0#32
  | .load => 0#32
  | .inc => 0#32
  | .add => 0#32
  | .div => 0#32
  | .mod => 0#32

/-- The encoder: `{op(m), a mod 2^32}`, the op in the more significant bits (R56). -/
def encode (i : Instr) : CodeWord := opNumberOf i ++ argOf i

/-- The instruction the decoder reads from the table's word. The table gives each row one 40-bit word, bit 0
its least significant bit, so the number is the word; a number of fewer bits has zeros above. -/
def decodeTableWord (nbits w : Nat) : Option Instr :=
  if nbits ≤ 40 then
    match decode (BitVec.ofNat 40 (w % 2 ^ nbits)) with
    | .ok i => some i
    | .error _ => none
  else none

/-! ## The record form -/

/-- The mnemonic text of an opcode (R51). -/
def Opcode.name : Opcode → String
  | .HALT => "HALT"
  | .JUMP => "JUMP"
  | .JZ => "JZ"
  | .PUSH => "PUSH"
  | .PUSH2 => "PUSH2"
  | .POP => "POP"
  | .DUP => "DUP"
  | .DROP => "DROP"
  | .LOAD => "LOAD"
  | .INC => "INC"
  | .ADD => "ADD"
  | .DIV => "DIV"
  | .MOD => "MOD"
  | .NUMBER => "NUMBER"
  | .STRING => "STRING"
  | .BUFFER => "BUFFER"

/-- All mnemonics of R51, in the order of their numbers. -/
def allOpcodes : List Opcode :=
  [.HALT, .JUMP, .JZ, .PUSH, .PUSH2, .POP, .DUP, .DROP, .LOAD, .INC, .ADD, .DIV, .MOD, .NUMBER, .STRING,
    .BUFFER]

/-- The opcode a mnemonic text names, if it is one of the sixteen (R54). -/
def opcodeOfName (s : String) : Option Opcode := allOpcodes.find? fun o => o.name == s

/-- A record of an opcode that takes an argument (R52): its absence is an arity fault. -/
def needArg (arg : Option Word) (mk : Word → Instr) : Except DecodeError Instr :=
  match arg with
  | some a => .ok (mk a)
  | none => .error .arity

/-- A record of an opcode that takes none (R52): "arg present (any integer, zero included)" is an arity
fault. -/
def refuseArg (arg : Option Word) (i : Instr) : Except DecodeError Instr :=
  match arg with
  | some _ => .error .arity
  | none => .ok i

/-- A record of a declarative opcode: admitted "with any `arg` field" (R53), absent included. An absent one is
kept as 0, as the binary form spells it. DEDUCED (log 8), safe: no rule reads it. -/
def anyArg (arg : Option Word) (mk : Word → Instr) : Except DecodeError Instr := .ok (mk (arg.getD 0#32))

/-- "Decode a raw record into a typed opcode plus optional integer argument" (R52, R53, R55), for a known
mnemonic. -/
def decodeOpcode (o : Opcode) (arg : Option Word) : Except DecodeError Instr :=
  match o with
  | .HALT => refuseArg arg .halt
  | .JUMP => needArg arg .jump
  | .JZ => needArg arg .jz
  | .PUSH => needArg arg .push
  | .PUSH2 => needArg arg .push2
  | .POP => refuseArg arg .pop
  | .DUP => refuseArg arg .dup
  | .DROP => refuseArg arg .drop
  | .LOAD => refuseArg arg .load
  | .INC => refuseArg arg .inc
  | .ADD => refuseArg arg .add
  | .DIV => refuseArg arg .div
  | .MOD => refuseArg arg .mod
  | .NUMBER => anyArg arg .number
  | .STRING => anyArg arg .string
  | .BUFFER => anyArg arg .buffer

/-- The codec on a record's mnemonic text and argument: DecodeFault "if the mnemonic is unrecognized or
argument arity is wrong" (R52, R54). -/
def decodeRecord (opcode : String) (arg : Option Word) : Except DecodeError Instr :=
  match opcodeOfName opcode with
  | some o => decodeOpcode o arg
  | none => .error .unrecognised

/-- The mirror transform on records (R56): the opcode and the argument, absent where the opcode takes
none. -/
def encodeRecord : Instr → Opcode × Option Word
  | .halt => (.HALT, none)
  | .jump a => (.JUMP, some a)
  | .jz a => (.JZ, some a)
  | .push a => (.PUSH, some a)
  | .push2 a => (.PUSH2, some a)
  | .pop => (.POP, none)
  | .dup => (.DUP, none)
  | .drop => (.DROP, none)
  | .load => (.LOAD, none)
  | .inc => (.INC, none)
  | .add => (.ADD, none)
  | .div => (.DIV, none)
  | .mod => (.MOD, none)
  | .number a => (.NUMBER, some a)
  | .string a => (.STRING, some a)
  | .buffer a => (.BUFFER, some a)

end Sys2Proof
end

