-- ==== Sys2Proof/Machine/State.lean ====
section
/-! DEFINITION. The state of the core as plain data (10_state.md), the ways a step can end, and reset. -/

namespace Sys2Proof.Machine

/-- Why a RuntimeFault was raised (R105). -/
inductive RuntimeReason where
  /-- A stack access or a new `sp` out of range (R70, R72). -/
  | stackBounds
  /-- A backing-storage access out of range (R34). -/
  | memoryBounds
  /-- A fetch outside `code` (R64). -/
  | pcBounds
  /-- A signal invoked for an opcode it does not support (R81); unreachable. -/
  | wrongOpcodeForSignal
  deriving DecidableEq, Repr

/-- The stop causes a run can latch (R21, R100). LoadFault is the loader's: the core never starts (R106). -/
inductive StopCause where
  | halt
  | inputExhausted
  | tickLimitExceeded
  | decodeFault
  | runtimeFault (reason : RuntimeReason)
  deriving DecidableEq, Repr

/-- `run_state` (R21). -/
inductive RunState where
  | running
  | stopped (cause : StopCause)
  deriving DecidableEq, Repr

/-- Data memory (R22): `size` is `L`; `cells` lists, by rising address, the cells whose value is not 0. The
image gives every cell below `L` its value, so an unlisted cell is one that holds 0: this is a way to write
the memory down, not a choice of its contents (log 6). -/
structure Memory where
  size : Nat
  cells : List (Nat × Word)
  deriving DecidableEq, Repr

/-- The cells of a canonical memory: addresses from `lo` on, strictly rising, below `hi`, no listed 0. -/
def cellsCanonical (lo hi : Nat) : List (Nat × Word) → Bool
  | [] => true
  | (a, v) :: rest => decide (lo ≤ a) && decide (a < hi) && decide (v ≠ 0#32) && cellsCanonical (a + 1) hi rest

/-- The canonical form: equal memories are equal data. -/
def Memory.wf (m : Memory) : Bool := cellsCanonical 0 m.size m.cells

/-- The state of the core (R13 to R25) and, because a step takes nothing else, the parameters of the step that
no instruction changes: `code`, the capacity (the length of `stack`), `L` (`memory.size`), `N` (the length of
`code`) and `TICK_LIMIT` (R6, R11; log 1). -/
structure State where
  /-- The operand register file, `CAP` cells from `stack[0]` (R14). -/
  stack : List Word
  /-- The stack pointer; `-1` is empty (R15). -/
  sp : Int
  /-- The address latched by POP and LOAD (R16). -/
  dataAddress : Word
  /-- Data memory (R22). -/
  memory : Memory
  /-- Input codes not yet read, front first (R24). -/
  inputQueue : List Word
  /-- Output values, oldest first (R25). -/
  outputSeq : List Word
  /-- Program counter, an instruction index (R17). -/
  pc : Word
  /-- Instruction register, the word last fetched (R18). -/
  ir : CodeWord
  /-- Tick counter (R19). -/
  tick : Nat
  /-- Count of completed cycles (R20). -/
  instrCount : Nat
  /-- Running, or stopped with a cause (R21). -/
  runState : RunState
  /-- Code memory, immutable (R23). -/
  code : List CodeWord
  /-- The tick ceiling (R6, R126). -/
  tickLimit : Nat
  deriving DecidableEq, Repr

/-- `STACK_CAPACITY`, the number of stack cells (R6, R14). -/
def State.cap (s : State) : Nat := s.stack.length

/-- `N`, the number of instructions in `code` (R6, R23). -/
def State.codeSize (s : State) : Nat := s.code.length

/-- Why a step ends with no next state. -/
inductive Fault where
  /-- Raised by `step` alone, on a state whose `run_state` is not Running: "From such a state the core has no
  step" (R12, R110). Safe: the hardware performs no further step either. -/
  | stopped (cause : StopCause)
  deriving DecidableEq, Repr

/-- Why an instruction has no meaning. -/
inductive Refusal where
  /-- Raised by an arm of `exec` that has no meaning yet, by its mnemonic. Safe: no claim can be proved of what
  the instruction does. No arm of this model raises it. -/
  | notModelled (mnemonic : String)
  deriving DecidableEq, Repr

/-- What a signal, or a sequence of signals, comes to: it goes on from a state, or a `raise` ended the cycle
and left a state (R63, R110). -/
inductive Flow where
  | goes (s : State)
  | raised (s : State)
  deriving DecidableEq, Repr

/-- Reset and load with the given parameters (R29, R119): every register at its reset value, the loaded
memory, code and input queue in place. -/
def State.resetWith (capacity tickLimit : Nat) (memory : Memory) (code : List CodeWord)
    (inputQueue : List Word) : State where
  stack := List.replicate capacity Config.stackSentinel
  sp := Config.initialSp
  dataAddress := 0#32
  memory := memory
  inputQueue := inputQueue
  outputSeq := []
  pc := 0#32
  ir := 0#40
  tick := 0
  instrCount := 0
  runState := .running
  code := code
  tickLimit := tickLimit

/-- The machine right after reset with nothing loaded: the image of no cells and no instructions, no input
file, so the queue holds only the appended 0 (R124), and the launch values of Config (log 2, log 3). -/
def State.reset : State :=
  State.resetWith Config.resetCapacity Config.resetTickLimit { size := 0, cells := [] } [] [0#32]

end Sys2Proof.Machine
end

