-- ==== Sys2Proof/Machine/Ops.lean ====
section
/-! DEFINITION. The shared operations: stopping (the hardware's only exception entry), sequencing, ticks, and
access to data memory. -/

namespace Sys2Proof.Machine

/-! ## Raise: the one exception entry -/

/-- `raise X` (R100, R110): `run_state` becomes `Stopped(X)`, every other piece of state keeps its value, and
the cycle ends here. There is no saved state, no handler and no return (R110, R111). -/
def raise (cause : StopCause) (s : State) : Flow := .raised { s with runState := .stopped cause }

/-- Go on with the next signal unless a `raise` has ended the cycle (R63, R131). -/
def Flow.andThen (f : Flow) (next : State → Flow) : Flow :=
  match f with
  | .goes s => next s
  | .raised s => .raised s

/-- The state a flow ends in. -/
def Flow.state : Flow → State
  | .goes s => s
  | .raised s => s

/-- A dispatch arm's outcome: a next state, whether the arm completed or raised (log 5). -/
def Flow.outcome (f : Flow) : Host.Outcome State Fault Refusal := .next f.state

/-- `tick <- tick + 1` (R19, R69). -/
def chargeTick (s : State) : Flow := .goes { s with tick := s.tick + 1 }

/-! ## Data memory -/

/-- The value a list of cells gives an address; an unlisted address holds 0 (log 6). -/
def lookupCell : List (Nat × Word) → Nat → Word
  | [], _ => 0#32
  | (b, v) :: rest, a => if a = b then v else lookupCell rest a

/-- Set the value at an address, keeping the canonical form: a 0 is not listed. -/
def updateCell : List (Nat × Word) → Nat → Word → List (Nat × Word)
  | [], a, v => if v = 0#32 then [] else [(a, v)]
  | (b, w) :: rest, a, v =>
    if a < b then (if v = 0#32 then (b, w) :: rest else (a, v) :: (b, w) :: rest)
    else if a = b then (if v = 0#32 then rest else (a, v) :: rest)
    else (b, w) :: updateCell rest a v

/-- An address that names a cell: `0 <= a < L` (R34). -/
def Memory.inBounds (m : Memory) (a : Int) : Bool := decide (0 ≤ a) && decide (a < m.size)

/-- `MemRead(a, 1)`: the cell `memory[a]`, or nothing if `a < 0` or `a >= L` (R34). -/
def Memory.read (m : Memory) (a : Int) : Option Word :=
  if m.inBounds a then some (lookupCell m.cells a.toNat) else none

/-- `memory[a] <- v`, and no other cell, for an `a` that names a cell (R34). -/
def Memory.set (m : Memory) (a : Int) (v : Word) : Memory :=
  { m with cells := updateCell m.cells a.toNat v }

/-- `MemWrite(a, 1, v)`: the memory after it, or nothing if `a < 0` or `a >= L` (R34). -/
def Memory.write (m : Memory) (a : Int) (v : Word) : Option Memory :=
  if m.inBounds a then some (m.set a v) else none

/-- The memory of `L` cells the loader builds from the image's values, first cell first (R22, R47). -/
def cellsFrom (a : Nat) : List Word → List (Nat × Word)
  | [] => []
  | v :: rest => if v = 0#32 then cellsFrom (a + 1) rest else (a, v) :: cellsFrom (a + 1) rest

/-- The data memory that holds the given cells, `memory[0]` first (R22, R47). -/
def Memory.ofCells (vs : List Word) : Memory := { size := vs.length, cells := cellsFrom 0 vs }

/-- `MemRead` as a signal uses it: RuntimeFault(MemoryBounds) out of range, before any state changes (R34). -/
def withMemoryCell (a : Int) (s : State) (use : Word → Flow) : Flow :=
  match s.memory.read a with
  | some v => use v
  | none => raise (.runtimeFault .memoryBounds) s

/-- `MemWrite` as a signal uses it: RuntimeFault(MemoryBounds) out of range, before any state changes (R34). -/
def writeMemoryCell (a : Int) (v : Word) (s : State) : Flow :=
  match s.memory.write a v with
  | some m => .goes { s with memory := m }
  | none => raise (.runtimeFault .memoryBounds) s

end Sys2Proof.Machine
end

