-- ==== Sys2Proof/Machine/Cycle.lean ====
section
/-! DEFINITION. The parts of a step around the dispatch: the run controller's ceiling test (R126), the fetch
(R64 to R66), the decoding of `ir` (R67) and the trailing tick with the count (R68). -/

namespace Sys2Proof.Machine

/-- The ceiling test `tick >= TICK_LIMIT` (R126). -/
def ceilingReached (s : State) : Bool := decide (s.tickLimit ≤ s.tick)

/-- The instruction word `code[pc]`, or nothing if `pc < 0` or `pc >= N` (R64). -/
def fetchWord (s : State) : Option CodeWord := if s.pc.toInt < 0 then none else s.code[s.pc.toInt.toNat]?

/-- Fetch, default advance and fetch tick (R64 to R66); RuntimeFault(PcBounds) before anything changes if there
is no such instruction. -/
def fetch (s : State) : Flow :=
  match fetchWord s with
  | some w => .goes { s with ir := w, pc := s.pc + 1#32, tick := s.tick + 1 }
  | none => raise (.runtimeFault .pcBounds) s

/-- Dispatch on the instruction in `ir`, given what each instruction does; a word the codec does not accept
raises DecodeFault here (R54, R67). -/
def dispatchIr (run : Instr → State → Host.Outcome State Fault Refusal) (s : State) :
    Host.Outcome State Fault Refusal :=
  match decode s.ir with
  | .ok i => run i s
  | .error _ => (raise .decodeFault s).outcome

/-- Trailing tick and instruction count, "neither ... in a cycle that raised" (R68). -/
def finishCycle (s : State) : State :=
  match s.runState with
  | .running => { s with tick := s.tick + 1, instrCount := s.instrCount + 1 }
  | .stopped _ => s

/-- The cycle after a successful fetch (R67, R68). -/
def dispatchAndFinish (run : Instr → State → Host.Outcome State Fault Refusal) (s : State) :
    Host.Outcome State Fault Refusal :=
  match dispatchIr run s with
  | .next t => .next (finishCycle t)
  | .fault r => .fault r
  | .refused r => .refused r

/-- One instruction cycle (R63). -/
def cycle (run : Instr → State → Host.Outcome State Fault Refusal) (s : State) :
    Host.Outcome State Fault Refusal :=
  match fetch s with
  | .goes t => dispatchAndFinish run t
  | .raised t => .next t

/-- One pass of the run controller's loop (R125): the ceiling stop, or one cycle. A stopped core has no step
(R12, R110). -/
def runController (run : Instr → State → Host.Outcome State Fault Refusal) (s : State) :
    Host.Outcome State Fault Refusal :=
  match s.runState with
  | .stopped c => .fault (.stopped c)
  | .running => if ceilingReached s then (raise .tickLimitExceeded s).outcome else cycle run s

/-- `code` with the word `w` at index `n`, extended with all-zero words (HALT) if it is shorter. -/
def placeWord (code : List CodeWord) (n : Nat) (w : CodeWord) : List CodeWord :=
  (code ++ List.replicate (n + 1 - code.length) 0#40).set n w

/-- The `pc` at which a word can be placed: `pc` itself, or 0 if no code memory has an instruction there
(R17: `N <= 2^31 - 1`). -/
def placeablePc (pc : Word) : Word := if 0 ≤ pc.toInt ∧ pc.toInt < maxWord then pc else 0#32

/-- The state whose very next step fetches `w`: `w` at the index `pc` names, the core running and the ceiling not
yet reached (log 26). -/
def withWordAtPc (s : State) (w : CodeWord) : State :=
  { s with
    pc := placeablePc s.pc
    code := placeWord s.code (placeablePc s.pc).toInt.toNat w
    runState := .running
    tickLimit := max s.tickLimit (s.tick + 1) }

end Sys2Proof.Machine
end

