-- ==== Sys2Proof/Machine/Alu.lean ====
section
/-! DEFINITION. The arithmetic-logic unit, a pure function (R76), over exact integers narrowed at the end. -/

namespace Sys2Proof.Machine

/-- `wrap32(v)`: the 32-bit two's-complement pattern of the exact integer `v` (R9). -/
def wrap32 (v : Int) : Word := BitVec.ofInt 32 v

/-- `fdiv(a, b) = floor(a / b)`, for `b != 0` (R9). -/
def floorDiv (a b : Int) : Int := a.fdiv b

/-- `fmod(a, b) = a - b * fdiv(a, b)`, for `b != 0` (R9). -/
def floorMod (a b : Int) : Int := a - b * floorDiv a b

/-- `alu(opcode, left, right)` (R76): ADD is `right + left`; DIV and MOD take `left` as the divisor and give
the sentinel `-1` when it is 0; the result wraps and never traps. -/
def alu (op : AluOp) (left right : Word) : Word :=
  match op with
  | .add => wrap32 (right.toInt + left.toInt)
  | .div => if left = 0#32 then Config.divByZeroSentinel else wrap32 (floorDiv right.toInt left.toInt)
  | .mod => if left = 0#32 then Config.divByZeroSentinel else wrap32 (floorMod right.toInt left.toInt)

end Sys2Proof.Machine
end

