-- ==== Sys2Proof/Machine/Operands.lean ====
section
/-! DEFINITION. The operands: stack cells, reached only through `sp` and checked on every access (R14, R45, R70). -/

namespace Sys2Proof.Machine

/-- The stack cell `stack[i]`, or nothing if `i < 0` or `i >= CAP` (R70). -/
def readStack (s : State) (i : Int) : Option Word := if i < 0 then none else s.stack[i.toNat]?

/-- Top-of-stack, `stack[sp]` (R10). -/
def State.tos (s : State) : Option Word := readStack s s.sp

/-- Second-of-stack, `stack[sp-1]` (R10). -/
def State.sos (s : State) : Option Word := readStack s (s.sp - 1)

/-- A read `stack[i]` by a signal: RuntimeFault(StackBounds) if it is out of range, "and the access is not
made" (R70; the spec's decision D8, log 12). -/
def withStackCell (i : Int) (s : State) (use : Word → Flow) : Flow :=
  match readStack s i with
  | some v => use v
  | none => raise (.runtimeFault .stackBounds) s

/-- The state after `stack[i] <- v`, for an `i` in `0 .. CAP-1`. -/
def State.setStack (s : State) (i : Int) (v : Word) : State := { s with stack := s.stack.set i.toNat v }

/-- A write `stack[i] <- v` by a signal, with the same check (R70). -/
def writeStackCell (i : Int) (v : Word) (s : State) : Flow :=
  if 0 ≤ i ∧ i < s.cap then .goes (s.setStack i v) else raise (.runtimeFault .stackBounds) s

end Sys2Proof.Machine
end

