-- ==== Sys2Proof/Machine/Flags.lean ====
section
/-! DEFINITION. There is no flag register (R26). The one condition is the predicate `zero()` (R79). -/

namespace Sys2Proof.Machine

/-- `zero()`: "true iff the current top-of-stack equals zero" (R79). It changes nothing; reading an empty
stack raises RuntimeFault(StackBounds) by R70. -/
def withZero (s : State) (use : Bool → Flow) : Flow := withStackCell s.sp s fun t => use (decide (t = 0#32))

end Sys2Proof.Machine
end

