-- ==== Sys2Proof/Machine/Signals.lean ====
section
/-! DEFINITION. The datapath signals of 40_instruction_cycle.md section 3. Each takes the instruction, as the
hardware's signals take opcode and `arg` from `ir`, and each has the wrong-opcode arm of R81. -/

namespace Sys2Proof.Machine

/-- "A signal invoked for an opcode it does not support" (R81); unreachable under the dispatch of R82. -/
def wrongOpcode (s : State) : Flow := raise (.runtimeFault .wrongOpcodeForSignal) s

/-- `latch_data_address` (R71). -/
def latchDataAddress (i : Instr) (s : State) : Flow :=
  match i with
  | .pop => withStackCell (s.sp - 1) s fun a => .goes { s with dataAddress := a }
  | .load => withStackCell s.sp s fun a => .goes { s with dataAddress := a }
  | .halt => wrongOpcode s
  | .jump _ => wrongOpcode s
  | .jz _ => wrongOpcode s
  | .push _ => wrongOpcode s
  | .push2 _ => wrongOpcode s
  | .dup => wrongOpcode s
  | .drop => wrongOpcode s
  | .inc => wrongOpcode s
  | .add => wrongOpcode s
  | .div => wrongOpcode s
  | .mod => wrongOpcode s
  | .number _ => wrongOpcode s
  | .string _ => wrongOpcode s
  | .buffer _ => wrongOpcode s

/-- The "opcode-determined" pointer delta of R72. -/
def spDelta : Instr → Option Int
  | .push _ => some 1
  | .push2 _ => some 1
  | .dup => some 1
  | .drop => some (-1)
  | .add => some (-1)
  | .div => some (-1)
  | .mod => some (-1)
  | .pop => some (-2)
  | .halt => none
  | .jump _ => none
  | .jz _ => none
  | .load => none
  | .inc => none
  | .number _ => none
  | .string _ => none
  | .buffer _ => none

/-- Move `sp` by `d`, or RuntimeFault(StackBounds) with `sp` unchanged if that leaves `-1 .. CAP-1` (R72). -/
def moveSp (d : Int) (s : State) : Flow :=
  if s.sp + d < -1 ∨ (s.cap : Int) - 1 < s.sp + d then raise (.runtimeFault .stackBounds) s
  else .goes { s with sp := s.sp + d }

/-- `latch_stack_pointer` (R72). -/
def latchStackPointer (i : Instr) (s : State) : Flow :=
  match spDelta i with
  | some d => moveSp d s
  | none => wrongOpcode s

/-- `input` (R77): the front code of the queue goes to the current top; InputExhausted if the queue is empty. -/
def inputSignal (s : State) : Flow :=
  match s.inputQueue with
  | [] => raise .inputExhausted s
  | c :: rest => writeStackCell s.sp c { s with inputQueue := rest }

/-- `output` (R78): append the current top to the output sequence. -/
def outputSignal (s : State) : Flow :=
  withStackCell s.sp s fun v => .goes { s with outputSeq := s.outputSeq ++ [v] }

/-- Copy the value one below the top into the top (R73, for PUSH2 and DUP). -/
def copySecondToTop (s : State) : Flow := withStackCell (s.sp - 1) s fun v => writeStackCell s.sp v s

/-- The value LOAD puts on top: from the input port if the latched address is `INPUT_PORT`, compared before any
bounds check, else from data memory (R32, R73). -/
def loadToTop (s : State) : Flow :=
  if s.dataAddress = Config.inputPort then inputSignal s
  else withMemoryCell s.dataAddress.toInt s fun v => writeStackCell s.sp v s

/-- `latch_top_of_stack` (R73). INC wraps by the spec's decision D7 (log 11). -/
def latchTopOfStack (i : Instr) (s : State) : Flow :=
  match i with
  | .push arg => writeStackCell s.sp arg s
  | .push2 _ => copySecondToTop s
  | .dup => copySecondToTop s
  | .load => loadToTop s
  | .inc => withStackCell s.sp s fun v => writeStackCell s.sp (wrap32 (v.toInt + 1)) s
  | .halt => wrongOpcode s
  | .jump _ => wrongOpcode s
  | .jz _ => wrongOpcode s
  | .pop => wrongOpcode s
  | .drop => wrongOpcode s
  | .add => wrongOpcode s
  | .div => wrongOpcode s
  | .mod => wrongOpcode s
  | .number _ => wrongOpcode s
  | .string _ => wrongOpcode s
  | .buffer _ => wrongOpcode s

/-- The ALU result for `left` = top and `right` = second, written to the second cell (R74; the binding is the
spec's decision D6, log 10). -/
def aluToSecond (op : AluOp) (s : State) : Flow :=
  withStackCell s.sp s fun left =>
    withStackCell (s.sp - 1) s fun right => writeStackCell (s.sp - 1) (alu op left right) s

/-- `latch_second_of_stack` (R74). -/
def latchSecondOfStack (i : Instr) (s : State) : Flow :=
  match i with
  | .add => aluToSecond .add s
  | .div => aluToSecond .div s
  | .mod => aluToSecond .mod s
  | .push2 arg => writeStackCell (s.sp - 1) arg s
  | .halt => wrongOpcode s
  | .jump _ => wrongOpcode s
  | .jz _ => wrongOpcode s
  | .push _ => wrongOpcode s
  | .pop => wrongOpcode s
  | .dup => wrongOpcode s
  | .drop => wrongOpcode s
  | .load => wrongOpcode s
  | .inc => wrongOpcode s
  | .number _ => wrongOpcode s
  | .string _ => wrongOpcode s
  | .buffer _ => wrongOpcode s

/-- Store the top at the latched address: to the output port if it is `OUTPUT_PORT`, compared before any bounds
check, else to data memory (R32, R75). -/
def storeTop (s : State) : Flow :=
  if s.dataAddress = Config.outputPort then outputSignal s
  else withStackCell s.sp s fun v => writeMemoryCell s.dataAddress.toInt v s

/-- `write_memory` (R75). -/
def writeMemory (i : Instr) (s : State) : Flow :=
  match i with
  | .pop => storeTop s
  | .halt => wrongOpcode s
  | .jump _ => wrongOpcode s
  | .jz _ => wrongOpcode s
  | .push _ => wrongOpcode s
  | .push2 _ => wrongOpcode s
  | .dup => wrongOpcode s
  | .drop => wrongOpcode s
  | .load => wrongOpcode s
  | .inc => wrongOpcode s
  | .add => wrongOpcode s
  | .div => wrongOpcode s
  | .mod => wrongOpcode s
  | .number _ => wrongOpcode s
  | .string _ => wrongOpcode s
  | .buffer _ => wrongOpcode s

/-- The control unit's re-latch of `pc` to `arg` (R80): unchecked, no tick of its own. -/
def latchPc (arg : Word) (s : State) : Flow := .goes { s with pc := arg }

end Sys2Proof.Machine
end

