-- ==== Sys2Proof/Machine/Arithmetic.lean ====
section
/-! DEFINITION. The dispatch arms of INC, ADD, DIV and MOD (44_arithmetic.md). -/

namespace Sys2Proof.Machine

/-- `Exec_INC()` (R94). -/
def execInc (s : State) : Host.Outcome State Fault Refusal := (latchTopOfStack .inc s).outcome

/-- `Exec_ADD()` (R95): the result is written under the top before `sp` drops (R131). -/
def execAdd (s : State) : Host.Outcome State Fault Refusal :=
  ((latchSecondOfStack .add s).andThen (latchStackPointer .add)).outcome

/-- `Exec_DIV()` (R96): second divided by top, floor. -/
def execDiv (s : State) : Host.Outcome State Fault Refusal :=
  ((latchSecondOfStack .div s).andThen (latchStackPointer .div)).outcome

/-- `Exec_MOD()` (R97): second modulo top, floor. -/
def execMod (s : State) : Host.Outcome State Fault Refusal :=
  ((latchSecondOfStack .mod s).andThen (latchStackPointer .mod)).outcome

end Sys2Proof.Machine
end

