-- ==== Sys2Proof/Machine/ControlFlow.lean ====
section
/-! DEFINITION. The dispatch arms of HALT, JUMP and JZ (41_control_flow.md). -/

namespace Sys2Proof.Machine

/-- `Exec_HALT` (R83): raise Halt; nothing else. -/
def execHalt (s : State) : Host.Outcome State Fault Refusal := (raise .halt s).outcome

/-- `Exec_JUMP(arg)` (R84): `pc <- arg`. -/
def execJump (arg : Word) (s : State) : Host.Outcome State Fault Refusal := (latchPc arg s).outcome

/-- `Exec_JZ(arg)` (R85): `pc <- arg` iff `zero()`; the top is not popped. -/
def execJz (arg : Word) (s : State) : Host.Outcome State Fault Refusal :=
  (withZero s fun z => if z then latchPc arg s else .goes s).outcome

end Sys2Proof.Machine
end

