-- ==== Sys2Proof/Machine/Declarative.lean ====
section
/-! DEFINITION. The dispatch of the declarative opcodes: "if one is ever fetched, the dispatch raises
DecodeFault" (R53, R67). `pc` has advanced and the fetch tick is charged by then (R104). -/

namespace Sys2Proof.Machine

/-- Dispatch of NUMBER (R53, R67). -/
def execNumber (_arg : Word) (s : State) : Host.Outcome State Fault Refusal := (raise .decodeFault s).outcome

/-- Dispatch of STRING (R53, R67). -/
def execString (_arg : Word) (s : State) : Host.Outcome State Fault Refusal := (raise .decodeFault s).outcome

/-- Dispatch of BUFFER (R53, R67). -/
def execBuffer (_arg : Word) (s : State) : Host.Outcome State Fault Refusal := (raise .decodeFault s).outcome

end Sys2Proof.Machine
end

