-- ==== Sys2Proof/Machine/MemoryPort.lean ====
section
/-! DEFINITION. The dispatch arm of LOAD (43_memory_port.md) and the two port sequences (R92, R93). -/

namespace Sys2Proof.Machine

/-- `Exec_LOAD()` (R91). -/
def execLoad (s : State) : Host.Outcome State Fault Refusal :=
  (((latchDataAddress .load s).andThen chargeTick).andThen (latchTopOfStack .load)).outcome

/-- The pseudo-instruction `input`: `PUSH 0`, `LOAD` (R60, R92). -/
def inputSequence : List Instr := [.push Config.inputPort, .load]

/-- The pseudo-instruction `output`: `PUSH2 1`, `POP` (R61, R93). -/
def outputSequence : List Instr := [.push2 Config.outputPort, .pop]

end Sys2Proof.Machine
end

