-- ==== Sys2Proof/Machine/Stack.lean ====
section
/-! DEFINITION. The dispatch arms of PUSH, PUSH2, POP, DUP and DROP (42_stack.md), with the inner ticks of R69. -/

namespace Sys2Proof.Machine

/-- `Exec_PUSH(arg)` (R86). -/
def execPush (arg : Word) (s : State) : Host.Outcome State Fault Refusal :=
  (((latchStackPointer (.push arg) s).andThen chargeTick).andThen (latchTopOfStack (.push arg))).outcome

/-- `Exec_PUSH2(arg)` (R87): the old top moves up before the literal overwrites its cell (R131). -/
def execPush2 (arg : Word) (s : State) : Host.Outcome State Fault Refusal :=
  (((((latchStackPointer (.push2 arg) s).andThen chargeTick).andThen
    (latchTopOfStack (.push2 arg))).andThen chargeTick).andThen (latchSecondOfStack (.push2 arg))).outcome

/-- `Exec_POP()` (R88): the address is latched and the value stored before `sp` drops (R131). -/
def execPop (s : State) : Host.Outcome State Fault Refusal :=
  ((((latchDataAddress .pop s).andThen chargeTick).andThen (writeMemory .pop)).andThen
    (latchStackPointer .pop)).outcome

/-- `Exec_DUP()` (R89). -/
def execDup (s : State) : Host.Outcome State Fault Refusal :=
  (((latchStackPointer .dup s).andThen chargeTick).andThen (latchTopOfStack .dup)).outcome

/-- `Exec_DROP()` (R90). -/
def execDrop (s : State) : Host.Outcome State Fault Refusal := (latchStackPointer .drop s).outcome

end Sys2Proof.Machine
end

