-- ==== Sys2Proof/Machine/Dispatch.lean ====
section
/-! DEFINITION. Dispatch (R67): one arm per opcode, each the `Exec_` block of its rule. -/

namespace Sys2Proof.Machine

def exec (i : Instr) (s : State) : Host.Outcome State Fault Refusal :=
  match i with
  | .halt => Sys2Proof.Machine.execHalt s
  | .jump arg => Sys2Proof.Machine.execJump arg s
  | .jz arg => Sys2Proof.Machine.execJz arg s
  | .push arg => Sys2Proof.Machine.execPush arg s
  | .push2 arg => Sys2Proof.Machine.execPush2 arg s
  | .pop => Sys2Proof.Machine.execPop s
  | .dup => Sys2Proof.Machine.execDup s
  | .drop => Sys2Proof.Machine.execDrop s
  | .load => Sys2Proof.Machine.execLoad s
  | .inc => Sys2Proof.Machine.execInc s
  | .add => Sys2Proof.Machine.execAdd s
  | .div => Sys2Proof.Machine.execDiv s
  | .mod => Sys2Proof.Machine.execMod s
  | .number arg => Sys2Proof.Machine.execNumber arg s
  | .string arg => Sys2Proof.Machine.execString arg s
  | .buffer arg => Sys2Proof.Machine.execBuffer arg s

end Sys2Proof.Machine
end

