-- ==== Sys2Proof/Machine/Step.lean ====
section
/-! DEFINITION. One step of the machine (R125). -/

namespace Sys2Proof.Machine

/-- One pass of the run controller's loop body: the ceiling stop, or one cycle (R63, R125). -/
def step (s : State) : Host.Outcome State Fault Refusal := runController exec s

/-- The state whose next step fetches and runs the table's word `w` of `nbits` bits (log 26). -/
def State.withFetchWord (s : State) (nbits w : Nat) : State :=
  withWordAtPc s (BitVec.ofNat 40 (w % 2 ^ nbits))

end Sys2Proof.Machine
end

