-- ==== Sys2Proof/Machine/Loader.lean ====
section
/-! DEFINITION. What the host does before the first cycle (70_reset_and_hazards.md section 2): the shape check,
the split of the image, the codec check and the input preparation. -/

namespace Sys2Proof.Machine

/-- What loading an image comes to. -/
inductive LoadResult where
  /-- The core, reset and loaded, before its first cycle (R121). -/
  | ready (s : State)
  /-- "Malformed machine-code image" (R106, R122); the core never starts. -/
  | loadFault
  /-- The codec's DecodeFault at load (R104(a), R123); the core never starts. -/
  | decodeFault (e : DecodeError)
  deriving DecidableEq, Repr

/-- The code of an input character: "every code must be in `[0, 2^31-1]`" (R124). -/
abbrev InputCode := Fin 2147483648

/-- Input preparation (R124): the codes in order and one appended 0; with no input file the real input is
empty. -/
def prepareInput (text : Option (List InputCode)) : List Word :=
  ((text.getD []).map fun c => BitVec.ofNat 32 c.val) ++ [0#32]

/-- The length `L` the image claims (R47), for an image of the right shape. -/
def imageLength : Image → Nat
  | .cell len :: _ => len.toNat
  | .record _ :: _ => 0
  | [] => 0

/-- The value of a data element (R47), for an element of the right shape. -/
def elementValue : Element → Word
  | .cell v => BitVec.ofInt 32 v
  | .record _ => 0#32

/-- The data cells of an image, `memory[i] = img[1 + i]` (R47, R121). -/
def imageCells (img : Image) : List Word := ((img.drop 1).take (imageLength img)).map elementValue

/-- The codec on the `arg` field of a record with a known mnemonic text (R52). A symbolic name never passes the
shape check (R122(c)), nor does a missing mnemonic: those arms are unreachable from `load`. -/
def decodeNamed (name : String) (arg : Field) : Except DecodeError Instr :=
  match arg with
  | .missing => decodeRecord name none
  | .int v => decodeRecord name (some (BitVec.ofInt 32 v))
  | .text _ => .error .arity

/-- The codec on one raw record (R123); `index` is not read (R46). -/
def decodeRaw (r : Record) : Except DecodeError Instr :=
  match r.opcode with
  | .text name => decodeNamed name r.arg
  | .missing => .error .unrecognised
  | .int _ => .error .unrecognised

/-- The codec on one code element (R123). -/
def decodeElement : Element → Except DecodeError Instr
  | .record r => decodeRaw r
  | .cell _ => .error .unrecognised

/-- The codec on every code element, in order; the first error ends it (R123). -/
def decodeElements : List Element → Except DecodeError (List Instr)
  | [] => .ok []
  | e :: rest =>
    match decodeElement e with
    | .error r => .error r
    | .ok i =>
      match decodeElements rest with
      | .error r => .error r
      | .ok is => .ok (i :: is)

/-- The code elements of an image, `img[L + 1 + j]` (R47, R121). -/
def imageCode (img : Image) : List Element := (img.drop 1).drop (imageLength img)

/-- Load and reset (R119, R121 to R124): LoadFault for a malformed image, DecodeFault for a record the codec does
not accept, else the core before its first cycle. -/
def load (capacity tickLimit : Nat) (img : Image) (text : Option (List InputCode)) : LoadResult :=
  if Image.wellFormed img then
    match decodeElements (imageCode img) with
    | .ok is =>
      .ready (State.resetWith capacity tickLimit (Memory.ofCells (imageCells img)) (is.map encode)
        (prepareInput text))
    | .error e => .decodeFault e
  else .loadFault

/-- The raw record of an instruction at a position: the machine-code form the translator writes (R46). -/
def recordOf (index : Nat) (i : Instr) : Record where
  index := .int index
  opcode := .text (encodeRecord i).1.name
  arg :=
    match (encodeRecord i).2 with
    | some a => .int a.toInt
    | none => .missing

/-- The records of an instruction list, from a position on. -/
def recordsFrom (index : Nat) : List Instr → List Element
  | [] => []
  | i :: rest => .record (recordOf index i) :: recordsFrom (index + 1) rest

/-- The machine image of a data segment and an instruction list (R47). -/
def imageOf (cells : List Word) (is : List Instr) : Image :=
  .cell cells.length :: (cells.map fun v => Element.cell v.toInt) ++ recordsFrom 0 is

/-! ## The translator's data layout (R48), which the core does not rely on -/

/-- A data declaration (R48). -/
inductive DataDecl where
  /-- "A literal number": one cell. -/
  | number (v : Word)
  /-- "A null-terminated character sequence (each character's code, then a trailing `0`)". -/
  | string (codes : List Word)
  /-- "A zero-filled buffer of a given length". -/
  | buffer (length : Nat)
  deriving DecidableEq, Repr

/-- The cells a declaration consumes (R48). -/
def DataDecl.cells : DataDecl → List Word
  | .number v => [v]
  | .string codes => codes ++ [0#32]
  | .buffer n => List.replicate n 0#32

/-- The data segment of a list of declarations, from offset 2 on (R5, R48). The values of cells 0 and 1 are not
stated by the source, so they are arguments. -/
def dataSegment (cell0 cell1 : Word) (decls : List DataDecl) : List Word :=
  cell0 :: cell1 :: decls.flatMap DataDecl.cells

end Sys2Proof.Machine
end

