-- ==== Sys2Proof/Machine/Result.lean ====
section
/-! DEFINITION. What the host reads after the run: the status code (R100), the result triple (R127) and the
rendered text (R128). -/

namespace Sys2Proof.Machine

/-- The three clean stops (R100, R112). -/
def StopCause.isClean : StopCause → Bool
  | .halt => true
  | .inputExhausted => true
  | .tickLimitExceeded => true
  | .decodeFault => false
  | .runtimeFault _ => false

/-- The status codes of R100 for a core (the numbers are the spec's decision D26, log 30). -/
def RunState.code : RunState → Nat
  | .running => 0
  | .stopped .halt => 1
  | .stopped .inputExhausted => 2
  | .stopped .tickLimitExceeded => 3
  | .stopped .decodeFault => 4
  | .stopped (.runtimeFault _) => 5

/-- The status codes of R100 for a load. -/
def LoadResult.code : LoadResult → Nat
  | .ready s => s.runState.code
  | .decodeFault _ => 4
  | .loadFault => 6

/-- The decimal numeral of an integer as character codes: "a leading `-` for negative values, no leading zeros,
no padding" (R128). -/
def decimal (v : Int) : List Int :=
  (if v < 0 then [45] else []) ++ (Nat.toDigits 10 v.natAbs).map fun c => (c.toNat : Int)

/-- One element of the output as text: the one character with its code if that is in the printable range, else
its decimal numeral (R128). Text is a list of character codes (log 21). -/
def renderValue (lo hi : Int) (v : Word) : List Int :=
  if lo ≤ v.toInt ∧ v.toInt ≤ hi then [v.toInt] else decimal v.toInt

/-- `render(output_seq)`: the pieces in order, "with nothing between them" (R128). -/
def render (lo hi : Int) (out : List Word) : List Int := out.flatMap (renderValue lo hi)

/-- The result triple (R127). -/
structure Result where
  text : List Int
  instrCount : Nat
  tick : Nat
  deriving DecidableEq, Repr

/-- The result the host reads: defined after a clean stop, and claimed after no fault (R12, R112, R127). -/
def State.result (lo hi : Int) (s : State) : Option Result :=
  match s.runState with
  | .stopped c =>
    if c.isClean then some { text := render lo hi s.outputSeq, instrCount := s.instrCount, tick := s.tick }
    else none
  | .running => none

end Sys2Proof.Machine
end

