-- ==== Sys2Proof/Safety.lean ====
section
/-! DEFINITION. The words claims are stated in: legal states, safe runs, a fetch about to happen, the tick table,
and what an instruction reads and writes. -/

namespace Sys2Proof.Machine

/-! ## Legal states -/

/-- The legal range of the stack pointer, `-1 <= sp <= CAP-1` (R15). -/
abbrev State.SpLegal (s : State) : Prop := -1 ≤ s.sp ∧ s.sp < s.cap

/-- Data memory in its canonical form and of an addressable size (R6, R22). -/
abbrev State.MemoryLegal (s : State) : Prop := s.memory.wf = true ∧ s.memory.size ≤ maxWord

/-- Code memory of an addressable size (R6, R17). -/
abbrev State.CodeLegal (s : State) : Prop := s.codeSize ≤ maxWord

/-- The ticks a core may have charged in a cycle it did not count: none at a cycle boundary, at most 3 in the cycle
that stopped it (R69, R110). -/
def uncountedTicks : RunState → Nat
  | .running => 0
  | .stopped _ => 3

/-- The two counters agree with the tick table (R82, R132): a counted instruction cost 2 to 4 ticks. -/
abbrev State.CountersLegal (s : State) : Prop :=
  2 * s.instrCount ≤ s.tick ∧ s.tick ≤ 4 * s.instrCount + uncountedTicks s.runState

/-- The tick counter exceeds the ceiling by at most 3 (R126). -/
abbrev State.CeilingKept (s : State) : Prop := s.tick ≤ s.tickLimit + 3

/-- The invariant of the machine: what every state of a run satisfies. -/
def State.Inv (s : State) : Prop :=
  s.SpLegal ∧ s.MemoryLegal ∧ s.CodeLegal ∧ s.CountersLegal ∧ s.CeilingKept

/-- Every word of code memory passed the codec (R123). -/
def State.CodeChecked (s : State) : Prop := ∀ w ∈ s.code, ∃ i, decode w = .ok i

/-! ## Safe runs -/

/-- The core stopped with one of the three clean causes (R12, R112). -/
def State.cleanStop (s : State) : Bool :=
  match s.runState with
  | .running => false
  | .stopped c => c.isClean

/-- The core stopped with DecodeFault or RuntimeFault (R12, R112). -/
def State.faulted (s : State) : Bool :=
  match s.runState with
  | .running => false
  | .stopped c => !c.isClean

/-- A run of `k` steps is safe if it answers a state that has not faulted; a run that would step a stopped core is
not asked about. -/
def SafeRun (k : Nat) (s : State) : Prop :=
  match Sys2Proof.core.run k s with
  | .next t => t.faulted = false
  | .fault _ => True
  | .refused _ => False

/-! ## A cycle about to run -/

/-- The next step fetches the word of instruction `i`: the core is running, the ceiling is not reached (R126) and
`code[pc]` is that word (R64). -/
def AboutToRun (i : Instr) (s : State) : Prop :=
  s.runState = .running ∧ s.tick < s.tickLimit ∧ 0 ≤ s.pc.toInt ∧ s.code[s.pc.toInt.toNat]? = some (encode i)

/-- The state the dispatch starts in, after fetch, advance and fetch tick (R64 to R66). -/
def State.fetched (s : State) (w : CodeWord) : State :=
  { s with ir := w, pc := s.pc + 1#32, tick := s.tick + 1 }

/-- "Total ticks" of the dispatch table (R82, R132); 1 for an opcode whose dispatch only raises (R67). -/
def totalTicks : Instr → Nat
  | .halt => 1
  | .jump _ => 2
  | .jz _ => 2
  | .push _ => 3
  | .dup => 3
  | .push2 _ => 4
  | .pop => 3
  | .load => 3
  | .drop => 2
  | .inc => 2
  | .add => 2
  | .div => 2
  | .mod => 2
  | .number _ => 1
  | .string _ => 1
  | .buffer _ => 1

/-- The declarative opcodes (R53). -/
def isDeclarative : Instr → Bool
  | .number _ => true
  | .string _ => true
  | .buffer _ => true
  | .halt => false
  | .jump _ => false
  | .jz _ => false
  | .push _ => false
  | .push2 _ => false
  | .pop => false
  | .dup => false
  | .drop => false
  | .load => false
  | .inc => false
  | .add => false
  | .div => false
  | .mod => false

/-- "Min depth" of the dispatch table (R82): the least `sp + 1` at the start with no StackBounds fault. -/
def minDepth : Instr → Nat
  | .halt => 0
  | .jump _ => 0
  | .jz _ => 1
  | .push _ => 0
  | .dup => 1
  | .push2 _ => 1
  | .pop => 2
  | .load => 1
  | .drop => 1
  | .inc => 1
  | .add => 2
  | .div => 2
  | .mod => 2
  | .number _ => 0
  | .string _ => 0
  | .buffer _ => 0

/-- The instructions that raise the depth, and so need a free cell (R82). -/
def needsFreeCell : Instr → Bool
  | .push _ => true
  | .push2 _ => true
  | .dup => true
  | .halt => false
  | .jump _ => false
  | .jz _ => false
  | .pop => false
  | .drop => false
  | .load => false
  | .inc => false
  | .add => false
  | .div => false
  | .mod => false
  | .number _ => false
  | .string _ => false
  | .buffer _ => false

/-- "Net `sp`" of the dispatch table (R82), for a completed instruction. -/
def netSp : Instr → Int
  | .halt => 0
  | .jump _ => 0
  | .jz _ => 0
  | .push _ => 1
  | .dup => 1
  | .push2 _ => 1
  | .pop => -2
  | .load => 0
  | .drop => -1
  | .inc => 0
  | .add => -1
  | .div => -1
  | .mod => -1
  | .number _ => 0
  | .string _ => 0
  | .buffer _ => 0

/-- The stack cells an instruction writes, from the state its dispatch starts in (the "writes" column of R82). -/
def writtenCells (i : Instr) (s : State) : List Int :=
  match i with
  | .halt => []
  | .jump _ => []
  | .jz _ => []
  | .push _ => [s.sp + 1]
  | .dup => [s.sp + 1]
  | .push2 _ => [s.sp + 1, s.sp]
  | .pop => []
  | .load => [s.sp]
  | .drop => []
  | .inc => [s.sp]
  | .add => [s.sp - 1]
  | .div => [s.sp - 1]
  | .mod => [s.sp - 1]
  | .number _ => []
  | .string _ => []
  | .buffer _ => []

/-- The instructions that may re-latch `pc` (R80). -/
def latchesPc : Instr → Bool
  | .jump _ => true
  | .jz _ => true
  | .halt => false
  | .push _ => false
  | .push2 _ => false
  | .pop => false
  | .dup => false
  | .drop => false
  | .load => false
  | .inc => false
  | .add => false
  | .div => false
  | .mod => false
  | .number _ => false
  | .string _ => false
  | .buffer _ => false

/-- The dispatch arms of several instructions, one after the other, without the fetches between them. -/
def execAll : List Instr → State → Host.Outcome State Fault Refusal
  | [], s => .next s
  | i :: rest, s =>
    match exec i s with
    | .next t => execAll rest t
    | .fault r => .fault r
    | .refused r => .refused r

/-! ## What is left unchanged -/

/-- The parameters of the step, which no instruction changes (R6, R23). -/
def SameParameters (s t : State) : Prop :=
  t.code = s.code ∧ t.tickLimit = s.tickLimit ∧ t.cap = s.cap ∧ t.memory.size = s.memory.size

/-- Every cell of data memory reads as before. -/
def SameMemory (s t : State) : Prop := ∀ a : Int, t.memory.read a = s.memory.read a

/-- Every stack cell reads as before. -/
def SameStack (s t : State) : Prop := ∀ i : Int, readStack t i = readStack s i

/-- The two states agree in everything a program can observe of them: all but the stack cells above `sp`,
`data_address`, `ir`, and the cell `memory[0]` under the input port (R28). -/
def SameObservable (s t : State) : Prop :=
  t = { s with stack := t.stack, dataAddress := t.dataAddress, ir := t.ir, memory := t.memory } ∧
    t.cap = s.cap ∧ (∀ i : Int, i ≤ s.sp → readStack t i = readStack s i) ∧
    t.memory.size = s.memory.size ∧ ∀ a : Int, a ≠ 0 → t.memory.read a = s.memory.read a

end Sys2Proof.Machine
end

