-- ==== Sys2Proof/Certificates/Slice0/Obligations.lean ====
section
/-! DEFINITION. The statements about the model, for the provers. "D<n>" names a decision of
92_eei_decisions.md: where a clause rests on one, the docstring says so. -/

open Sys2Proof Sys2Proof.Machine

/-! ## Encoding -/

/-- Decoding an encoded instruction gives it back, for every instruction and every argument (R56; the words are
the spec's decisions D1 to D3). -/
def Obligations.DecodeOfEncodeIsIdentity : Prop := ∀ i : Instr, decode (encode i) = .ok i

/-- A word that decodes is the encoding of what it decodes to: no bit of a word is ignored (R56; D1 to D3). -/
def Obligations.EncodeOfDecodeIsIdentity : Prop :=
  ∀ (w : CodeWord) (i : Instr), decode w = .ok i → encode i = w

/-- The decoder of R55, on the bits of the word as R8 numbers them: `op` is `floor(w / 2^32)`, the `arg` field is
`w mod 2^32`, and `a = sext_32` of it. -/
def Obligations.DecoderReadsOpAndArgFields : Prop :=
  ∀ (w : CodeWord) (op u : Nat) (a : Word), op = w.toNat / 4294967296 → u = w.toNat % 4294967296 →
    a.toInt = (if u < 2147483648 then (u : Int) else (u : Int) - 4294967296) →
    (op = 1 → decode w = .ok (.jump a)) ∧ (op = 2 → decode w = .ok (.jz a)) ∧
    (op = 3 → decode w = .ok (.push a)) ∧ (op = 4 → decode w = .ok (.push2 a)) ∧
    (op = 0 ∨ (5 ≤ op ∧ op ≤ 12) → u ≠ 0 → decode w = .error .arity) ∧
    (op = 0 → u = 0 → decode w = .ok .halt) ∧ (op = 5 → u = 0 → decode w = .ok .pop) ∧
    (op = 6 → u = 0 → decode w = .ok .dup) ∧ (op = 7 → u = 0 → decode w = .ok .drop) ∧
    (op = 8 → u = 0 → decode w = .ok .load) ∧ (op = 9 → u = 0 → decode w = .ok .inc) ∧
    (op = 10 → u = 0 → decode w = .ok .add) ∧ (op = 11 → u = 0 → decode w = .ok .div) ∧
    (op = 12 → u = 0 → decode w = .ok .mod) ∧ (op = 13 → decode w = .ok (.number a)) ∧
    (op = 14 → decode w = .ok (.string a)) ∧ (op = 15 → decode w = .ok (.buffer a)) ∧
    (16 ≤ op → decode w = .error .unrecognised)

/-- The decoder accepts exactly the well-formed words: an assigned `op`, and an all-zero field where the opcode
takes no argument (R52, R54; D2, D3). -/
def Obligations.DecodeAcceptsExactlyWellFormedWords : Prop :=
  ∀ w : CodeWord, (∃ i, decode w = .ok i) ↔ CodeWord.wellFormed w = true

/-- Eight of the words written out in 95_test_vectors.md (V-E1 to V-E4, V-E7, V-E8, V-E11 and V-E15) decode to the
instructions beside them. The word and its numbers are the spec's decisions D1 and D2 (log 7), the all-zero field
of an absent argument its D3 (log 8). -/
def Obligations.SpecWordsDecodeToTheirInstructions : Prop :=
  decode 0x0000000000#40 = .ok .halt ∧ decode 0x0100000005#40 = .ok (.jump 5#32) ∧
    decode 0x020000000C#40 = .ok (.jz 12#32) ∧ decode 0x03FFFFFFF9#40 = .ok (.push (BitVec.ofInt 32 (-7))) ∧
    decode 0x0400000001#40 = .ok (.push2 1#32) ∧ decode 0x0500000000#40 = .ok .pop ∧
    decode 0x0800000000#40 = .ok .load ∧ decode 0x0C00000000#40 = .ok .mod

/-- The record form's codec: decoding the record of an instruction gives it back ("Round-trip codec", S10). -/
def Obligations.RecordCodecRoundTrip : Prop :=
  ∀ i : Instr, decodeRecord (encodeRecord i).1.name (encodeRecord i).2 = .ok i

/-- The record form's DecodeFaults (R52, R54): an unknown mnemonic; an absent argument where one is needed; a
present one, zero included, where none is taken. An executable instruction comes from its own record only. -/
def Obligations.RecordArityAndMnemonicFaults : Prop :=
  (∀ (name : String) (arg : Option Word), (∀ o : Opcode, name ≠ o.name) →
      decodeRecord name arg = .error .unrecognised) ∧
    (∀ name ∈ ["JUMP", "JZ", "PUSH", "PUSH2"], decodeRecord name none = .error .arity) ∧
    (∀ name ∈ ["HALT", "POP", "DUP", "DROP", "LOAD", "INC", "ADD", "DIV", "MOD"], ∀ a : Word,
      decodeRecord name (some a) = .error .arity) ∧
    (∀ (name : String) (arg : Option Word) (i : Instr), decodeRecord name arg = .ok i →
      isDeclarative i = false → name = (encodeRecord i).1.name ∧ arg = (encodeRecord i).2)

/-! ## The step -/

/-- A step runs the decoded instruction: fetch, advance and fetch tick, then exec of the instruction the word at
`pc` decodes to, then the trailing tick and the count unless the instruction raised (R63 to R68; the count is the
spec's decision D13). -/
def Obligations.StepRunsTheDecodedInstruction : Prop :=
  ∀ (s t : State) (w : CodeWord) (i : Instr), s.runState = .running → s.tick < s.tickLimit →
    0 ≤ s.pc.toInt → s.code[s.pc.toInt.toNat]? = some w → decode w = .ok i →
    exec i { s with ir := w, pc := s.pc + 1#32, tick := s.tick + 1 } = .next t →
    (t.runState = .running → step s = .next { t with tick := t.tick + 1, instrCount := t.instrCount + 1 }) ∧
      (t.runState ≠ .running → step s = .next t)

/-- A fetched word the codec does not accept raises DecodeFault at dispatch, after the fetch tick, with `pc`
advanced (R54, R67; D14). -/
def Obligations.UndecodableWordRaisesDecodeFault : Prop :=
  ∀ (s : State) (w : CodeWord) (e : DecodeError), s.runState = .running → s.tick < s.tickLimit →
    0 ≤ s.pc.toInt → s.code[s.pc.toInt.toNat]? = some w → decode w = .error e →
    step s = .next { s with ir := w, pc := s.pc + 1#32, tick := s.tick + 1, runState := .stopped .decodeFault }

/-- A fetch with `pc < 0` or `pc >= N` raises RuntimeFault(PcBounds) before anything changes (R64; D10). -/
def Obligations.FetchOutsideCodeRaisesPcBounds : Prop :=
  ∀ s : State, s.runState = .running → s.tick < s.tickLimit → (s.pc.toInt < 0 ∨ s.codeSize ≤ s.pc.toInt) →
    step s = .next { s with runState := .stopped (.runtimeFault .pcBounds) }

/-- TickLimitExceeded is raised exactly when `tick >= TICK_LIMIT` at a cycle boundary, never inside a cycle, and
the state is otherwise the one the last cycle left (R103, R126; the comparison is D12). -/
def Obligations.TickCeilingStopsExactlyAtABoundary : Prop :=
  ∀ s : State, s.runState = .running →
    (s.tickLimit ≤ s.tick → step s = .next { s with runState := .stopped .tickLimitExceeded }) ∧
      ∀ t, step s = .next t → t.runState = .stopped .tickLimitExceeded → s.tickLimit ≤ s.tick

/-- A stopped core has no step (R12, R110, R111). -/
def Obligations.StoppedCoreHasNoStep : Prop :=
  ∀ (s : State) (c : StopCause), s.runState = .stopped c → step s = .fault (.stopped c)

/-! ## Reset, load and the invariant -/

/-- Reset puts every register at the value of R29, whatever is loaded (R119; `pc`, `tick`, `instr_count`,
`data_address` and `ir` are the spec's decision D5). -/
def Obligations.ResetHoldsTheSpecValues : Prop :=
  ∀ (capacity limit : Nat) (m : Memory) (code : List CodeWord) (queue : List Word) (s : State),
    s = State.resetWith capacity limit m code queue →
    s.cap = capacity ∧ (∀ i : Int, 0 ≤ i → i < capacity → readStack s i = some (BitVec.ofInt 32 (-1))) ∧
      s.sp = -1 ∧ s.dataAddress = 0#32 ∧ s.pc = 0#32 ∧ s.ir = 0#40 ∧ s.tick = 0 ∧ s.instrCount = 0 ∧
      s.runState = .running ∧ s.outputSeq = [] ∧ s.memory = m ∧ s.code = code ∧ s.inputQueue = queue ∧
      s.tickLimit = limit

/-- The invariant holds at the model's reset state (whose launch values are the model's choice, log 2 and 3). -/
def Obligations.ResetSatisfiesTheInvariant : Prop := State.reset.Inv

/-- Every core the loader makes ready satisfies the invariant, is running, and holds only words the codec
accepts, whatever the image, the input and the launch parameters (R121 to R123; D4, D5, D14). -/
def Obligations.LoadedCoreSatisfiesTheInvariant : Prop :=
  ∀ (capacity limit : Nat) (img : Image) (text : Option (List InputCode)) (s : State),
    load capacity limit img text = .ready s → s.Inv ∧ s.CodeChecked ∧ s.runState = .running

/-- Every step keeps the invariant: `sp` in `-1 .. CAP-1` (R15), data memory canonical and of its size, code of
its size, the two counters in agreement with the tick table (R132), and `tick` at most 3 past the ceiling
(R126; derived there). -/
def Obligations.StepKeepsTheInvariant : Prop :=
  ∀ s t : State, s.Inv → step s = .next t → t.Inv

/-- No step changes the code memory, the sizes of the stack and of data memory, or the ceiling (R6, R23, R43). -/
def Obligations.StepKeepsTheParameters : Prop :=
  ∀ s t : State, step s = .next t → SameParameters s t

/-! ## Control flow -/

/-- HALT raises Halt and does nothing else; over the whole cycle it costs the fetch tick only, is not counted and
leaves `pc` one past it (R83; the count is D13). -/
def Obligations.HaltStopsTheCore : Prop :=
  (∀ s : State, exec .halt s = .next { s with runState := .stopped .halt }) ∧
    ∀ s : State, AboutToRun .halt s →
      step s = .next
        { s with ir := 0x0000000000#40, pc := s.pc + 1#32, tick := s.tick + 1, runState := .stopped .halt }

/-- JUMP (R84): its word; `pc <- arg` and nothing else, on every state; the cycle costs 2 ticks and is counted;
a target outside `code` is found by the next fetch. -/
def Obligations.JumpLatchesItsTarget : Prop :=
  (∀ arg : Word, (encode (.jump arg)).toNat = 1 * 4294967296 + arg.toNat) ∧
    (∀ (arg : Word) (s : State), exec (.jump arg) s = .next { s with pc := arg }) ∧
    (∀ (arg : Word) (s t : State), AboutToRun (.jump arg) s →
      t = { s with ir := encode (.jump arg), pc := arg, tick := s.tick + 2, instrCount := s.instrCount + 1 } →
      step s = .next t ∧
        (arg.toInt < 0 ∨ s.codeSize ≤ arg.toInt → t.tick < t.tickLimit →
          step t = .next { t with runState := .stopped (.runtimeFault .pcBounds) }))

/-- JZ (R85): it jumps exactly on a top of 0, keeps the tested value, and changes nothing else. -/
def Obligations.JzJumpsExactlyOnZero : Prop :=
  ∀ (arg v : Word) (s : State), s.tos = some v →
    (v = 0#32 → exec (.jz arg) s = .next { s with pc := arg }) ∧ (v ≠ 0#32 → exec (.jz arg) s = .next s)

/-- NUMBER, STRING and BUFFER have no effect but DecodeFault at dispatch (R53, R67). -/
def Obligations.DeclarativeOpcodesRaiseDecodeFault : Prop :=
  ∀ (i : Instr) (s : State), isDeclarative i = true → exec i s = .next { s with runState := .stopped .decodeFault }

/-! ## Stack -/

/-- PUSH (R86): its word; below a full stack it raises `sp`, charges the inner tick and writes the literal on
top; on a full stack it raises RuntimeFault(StackBounds) with nothing else changed; the cycle costs 3 ticks. -/
def Obligations.PushPlacesItsLiteralOnTop : Prop :=
  (∀ arg : Word, (encode (.push arg)).toNat = 3 * 4294967296 + arg.toNat) ∧
    (∀ (arg : Word) (s : State), -1 ≤ s.sp → s.sp + 1 < s.cap →
      exec (.push arg) s =
        .next { s with sp := s.sp + 1, stack := s.stack.set (s.sp + 1).toNat arg, tick := s.tick + 1 }) ∧
    (∀ (arg : Word) (s : State), -1 ≤ s.sp → s.sp = (s.cap : Int) - 1 →
      exec (.push arg) s = .next { s with runState := .stopped (.runtimeFault .stackBounds) }) ∧
    (∀ (arg : Word) (s : State), AboutToRun (.push arg) s → -1 ≤ s.sp → s.sp + 1 < s.cap →
      step s = .next
        { s with sp := s.sp + 1, stack := s.stack.set (s.sp + 1).toNat arg, ir := encode (.push arg),
                 pc := s.pc + 1#32, tick := s.tick + 3, instrCount := s.instrCount + 1 })

/-- PUSH2 (R87): `[.., T] -> [.., arg, T]`, with two inner ticks. -/
def Obligations.Push2SlidesItsLiteralUnderTheTop : Prop :=
  ∀ (arg v : Word) (s : State), s.tos = some v → s.sp + 1 < s.cap →
    exec (.push2 arg) s =
      .next { s with sp := s.sp + 1, tick := s.tick + 2,
                     stack := (s.stack.set (s.sp + 1).toNat v).set s.sp.toNat arg }

/-- POP to memory (R88): the value on top goes to the cell the second cell names, no other cell of data memory
changes, both are removed, the address stays latched, the stack cells keep their values (D18 for address 0). -/
def Obligations.PopStoresTheTopInMemory : Prop :=
  ∀ (a v : Word) (s : State), s.memory.wf = true → s.sos = some a → s.tos = some v → a ≠ 1#32 → 0 ≤ a.toInt →
    a.toInt < s.memory.size →
    ∃ m : Memory, exec .pop s = .next { s with dataAddress := a, memory := m, sp := s.sp - 2, tick := s.tick + 1 } ∧
      m.size = s.memory.size ∧ m.read a.toInt = some v ∧ ∀ b : Int, b ≠ a.toInt → m.read b = s.memory.read b

/-- POP to the output port (R88, R32): with the address 1 the value is appended to the output sequence and data
memory is not touched, whatever its size. -/
def Obligations.PopWritesTheOutputPort : Prop :=
  ∀ (v : Word) (s : State), s.sos = some 1#32 → s.tos = some v →
    exec .pop s =
      .next { s with dataAddress := 1#32, outputSeq := s.outputSeq ++ [v], sp := s.sp - 2, tick := s.tick + 1 }

/-- DUP (R89): `[.., T] -> [.., T, T]`, with one inner tick. -/
def Obligations.DupCopiesTheTop : Prop :=
  ∀ (v : Word) (s : State), s.tos = some v → s.sp + 1 < s.cap →
    exec .dup s = .next { s with sp := s.sp + 1, stack := s.stack.set (s.sp + 1).toNat v, tick := s.tick + 1 }

/-- DROP (R90): its word; `sp` falls by 1 and nothing else changes, the dropped cell included; on an empty stack
RuntimeFault(StackBounds) with nothing else changed; the cycle costs 2 ticks. -/
def Obligations.DropRemovesTheTop : Prop :=
  encode .drop = 0x0700000000#40 ∧
    (∀ s : State, 0 ≤ s.sp → s.sp < s.cap → exec .drop s = .next { s with sp := s.sp - 1 }) ∧
    (∀ s : State, s.sp = -1 → exec .drop s = .next { s with runState := .stopped (.runtimeFault .stackBounds) }) ∧
    (∀ s : State, AboutToRun .drop s → 0 ≤ s.sp → s.sp < s.cap →
      step s = .next
        { s with sp := s.sp - 1, ir := 0x0700000000#40, pc := s.pc + 1#32, tick := s.tick + 2,
                 instrCount := s.instrCount + 1 })

/-- From an empty stack, `n <= CAP` consecutive PUSHes leave `sp = n - 1` with the literals in order (R86, S4). -/
def Obligations.ConsecutivePushesFillTheStack : Prop :=
  ∀ (args : List Word) (s : State), s.sp = -1 → args.length ≤ s.cap →
    ∃ t, execAll (args.map Instr.push) s = .next t ∧ t.sp = (args.length : Int) - 1 ∧
      (∀ i : Nat, i < args.length → readStack t i = args[i]?) ∧
      ∀ i : Nat, args.length ≤ i → readStack t i = readStack s i

/-! ## Memory and ports -/

/-- LOAD from data memory (R91): the address on top is replaced by the cell it names (D18 for address 1). -/
def Obligations.LoadReadsMemory : Prop :=
  ∀ (a v : Word) (s : State), s.tos = some a → a ≠ 0#32 → s.memory.read a.toInt = some v →
    exec .load s = .next { s with dataAddress := a, stack := s.stack.set s.sp.toNat v, tick := s.tick + 1 }

/-- LOAD from the input port (R91, R32): with the address 0 the front code of the queue replaces it and leaves
the queue; data memory is not touched, whatever its size. -/
def Obligations.LoadReadsTheInputPort : Prop :=
  ∀ (c : Word) (rest : List Word) (s : State), s.tos = some 0#32 → s.inputQueue = c :: rest →
    exec .load s =
      .next { s with dataAddress := 0#32, inputQueue := rest, stack := s.stack.set s.sp.toNat c,
                     tick := s.tick + 1 }

/-- LOAD or POP of an address outside `0 .. L-1` that is no port raises RuntimeFault(MemoryBounds), with the
address latched, one inner tick charged and nothing else changed (R34, R88, R91; D9). -/
def Obligations.AddressOutOfRangeRaisesMemoryBounds : Prop :=
  ∀ (a v : Word) (s : State), (a.toInt < 0 ∨ s.memory.size ≤ a.toInt) →
    (s.tos = some a → a ≠ 0#32 →
      exec .load s =
        .next { s with dataAddress := a, tick := s.tick + 1, runState := .stopped (.runtimeFault .memoryBounds) }) ∧
      (s.sos = some a → s.tos = some v → a ≠ 1#32 →
        exec .pop s =
          .next
            { s with dataAddress := a, tick := s.tick + 1, runState := .stopped (.runtimeFault .memoryBounds) })

/-! ## Arithmetic -/

/-- The ALU of R76: ADD is `right + left`, DIV the floor quotient and MOD the floor remainder of `right` by
`left`, each exact and then brought into the signed 32-bit range; `-1` for a `left` of 0. -/
def Obligations.AluComputesExactlyThenWraps : Prop :=
  ∀ left right : Word, let l := left.toInt; let r := right.toInt
    (alu .add left right).toInt = (r + l + 2147483648) % 4294967296 - 2147483648 ∧
      (l = 0 → (alu .div left right).toInt = -1 ∧ (alu .mod left right).toInt = -1) ∧
      (l ≠ 0 →
        (alu .div left right).toInt = (⌊(r : ℚ) / (l : ℚ)⌋ + 2147483648) % 4294967296 - 2147483648 ∧
          (alu .mod left right).toInt =
            (r - l * ⌊(r : ℚ) / (l : ℚ)⌋ + 2147483648) % 4294967296 - 2147483648)

/-- For a divisor other than 0 the remainder is 0 or has the sign of the divisor, is smaller than it, and is
congruent to the dividend (R97): no wrap ever changes it. -/
def Obligations.RemainderHasTheSignOfTheDivisor : Prop :=
  ∀ a b : Word, b ≠ 0#32 → let r := (alu .mod b a).toInt
    (r = 0 ∨ (0 < r ↔ 0 < b.toInt)) ∧ |r| < |b.toInt| ∧ b.toInt ∣ a.toInt - r

/-- INC (R94): the top plus one, wrapped (the wrap is the spec's decision D7), nothing else. -/
def Obligations.IncAddsOneToTheTop : Prop :=
  ∀ (b : Word) (s : State), s.tos = some b → exec .inc s = .next { s with stack := s.stack.set s.sp.toNat (b + 1#32) }

/-- ADD (R95): `[.., a, b] -> [.., a + b]`, wrapped, the old top cell left above `sp`. -/
def Obligations.AddReplacesTwoCellsByTheirSum : Prop :=
  ∀ (a b : Word) (s : State), s.sos = some a → s.tos = some b →
    exec .add s = .next { s with stack := s.stack.set (s.sp - 1).toNat (a + b), sp := s.sp - 1 }

/-- DIV (R96): `[.., a, b] -> [.., q]`, `q` the floor quotient of second by top, or `-1` for a top of 0 (which cell
is the divisor is the spec's decision D6); no trap. -/
def Obligations.DivReplacesTwoCellsByTheFloorQuotient : Prop :=
  ∀ (a b : Word) (s : State), s.sos = some a → s.tos = some b →
    ∃ q : Word,
      exec .div s = .next { s with stack := s.stack.set (s.sp - 1).toNat q, sp := s.sp - 1 } ∧
        (b = 0#32 → q = BitVec.ofInt 32 (-1)) ∧
        (b ≠ 0#32 → q = BitVec.ofInt 32 ⌊(a.toInt : ℚ) / (b.toInt : ℚ)⌋)

/-- MOD (R97): `[.., a, b] -> [.., r]`, `r = a - b * floor(a / b)`, or `-1` for a top of 0 (D6 as for DIV). -/
def Obligations.ModReplacesTwoCellsByTheFloorRemainder : Prop :=
  ∀ (a b : Word) (s : State), s.sos = some a → s.tos = some b →
    ∃ r : Word,
      exec .mod s = .next { s with stack := s.stack.set (s.sp - 1).toNat r, sp := s.sp - 1 } ∧
        (b = 0#32 → r = BitVec.ofInt 32 (-1)) ∧
        (b ≠ 0#32 → r.toInt = a.toInt - b.toInt * ⌊(a.toInt : ℚ) / (b.toInt : ℚ)⌋)

/-! ## Stops -/

/-- With fewer live cells than its minimum depth, every instruction but PUSH2 and DUP raises
RuntimeFault(StackBounds) before anything changes (R70 to R72, R82; D8). -/
def Obligations.ShallowStackRaisesStackBounds : Prop :=
  ∀ (i : Instr) (s : State), s.SpLegal → s.sp + 1 < minDepth i → needsFreeCell i = false →
    exec i s = .next { s with runState := .stopped (.runtimeFault .stackBounds) }

/-- On a full stack PUSH, PUSH2 and DUP raise RuntimeFault(StackBounds) with `sp` and every cell unchanged (R72,
R82). -/
def Obligations.FullStackRaisesStackBounds : Prop :=
  ∀ (i : Instr) (s : State), s.SpLegal → s.sp = (s.cap : Int) - 1 → needsFreeCell i = true →
    exec i s = .next { s with runState := .stopped (.runtimeFault .stackBounds) }

/-- On an empty stack that is not full, PUSH2 and DUP raise RuntimeFault(StackBounds) with `sp` already moved and
one inner tick charged (R87, R89, R110; D8, D11). -/
def Obligations.EmptyStackLeavesPush2AndDupHalfDone : Prop :=
  ∀ (i : Instr) (s : State), (i = .dup ∨ ∃ arg, i = .push2 arg) → s.sp = -1 → 0 < s.cap →
    exec i s = .next { s with sp := 0, tick := s.tick + 1, runState := .stopped (.runtimeFault .stackBounds) }

/-- The minimum depth of R82, and a free cell where one is needed, suffice: no StackBounds fault is raised. -/
def Obligations.MinimumDepthSuffices : Prop :=
  ∀ (i : Instr) (s t : State), s.runState = .running → s.SpLegal → (minDepth i : Int) ≤ s.sp + 1 →
    (needsFreeCell i = true → s.sp + 1 < s.cap) → exec i s = .next t →
    t.runState ≠ .stopped (.runtimeFault .stackBounds)

/-- Halt is raised by HALT and by nothing else, after the fetch tick, with no trailing tick, and records nothing
beyond the stop cause (R101). -/
def Obligations.HaltIsRaisedByHaltAlone : Prop :=
  ∀ s t : State, s.runState = .running → step s = .next t →
    ((t.runState = .stopped .halt ↔ AboutToRun .halt s) ∧
      (t.runState = .stopped .halt →
        t = { s with ir := 0#40, pc := s.pc + 1#32, tick := s.tick + 1, runState := .stopped .halt }))

/-- InputExhausted is raised inside a LOAD whose address is 0 when the queue is empty, and by nothing else; the
state at that stop is the one of R91 (R102; where the ticks of the LOAD fall is D11). -/
def Obligations.InputExhaustedIsRaisedByLoadAlone : Prop :=
  ∀ s t : State, s.runState = .running → step s = .next t →
    ((t.runState = .stopped .inputExhausted ↔ AboutToRun .load s ∧ s.tos = some 0#32 ∧ s.inputQueue = []) ∧
      (t.runState = .stopped .inputExhausted →
        t = { s with ir := 0x0800000000#40, pc := s.pc + 1#32, dataAddress := 0#32, tick := s.tick + 2,
                     runState := .stopped .inputExhausted }))

/-- In code that passed the codec, DecodeFault is raised exactly by a declarative opcode (R104(b); D14, D25). -/
def Obligations.DecodeFaultInCheckedCodeIsDeclarative : Prop :=
  ∀ s t : State, s.CodeChecked → s.runState = .running → step s = .next t →
    (t.runState = .stopped .decodeFault ↔ ∃ i, isDeclarative i = true ∧ AboutToRun i s)

/-- The wrong-opcode arms of the signals are unreachable (R81; derived there from R82; D27). -/
def Obligations.WrongOpcodeArmsAreUnreachable : Prop :=
  ∀ s t : State, s.runState = .running → step s = .next t →
    t.runState ≠ .stopped (.runtimeFault .wrongOpcodeForSignal)

/-! ## Frames -/

/-- What every instruction but POP and LOAD leaves unchanged (R37, R82): every cell of data memory, both queues,
`data_address`, `ir`, the counter of instructions and the parameters, and `pc` but for JUMP and JZ. The stack
and `sp` have statements of their own. -/
def Obligations.FrameOfInstructionsWithoutMemory : Prop :=
  ∀ (i : Instr) (s t : State), i ≠ .pop → i ≠ .load → exec i s = .next t →
    SameMemory s t ∧ t.inputQueue = s.inputQueue ∧ t.outputSeq = s.outputSeq ∧ t.dataAddress = s.dataAddress ∧
      t.ir = s.ir ∧ t.instrCount = s.instrCount ∧ SameParameters s t ∧ (latchesPc i = false → t.pc = s.pc)

/-- What LOAD leaves unchanged (R37, R38, R91): every stack cell but the top, `sp`, every cell of data memory, the
output, the input unless the address is 0, `pc`, `ir`, the count and the parameters. -/
def Obligations.FrameOfLoad : Prop :=
  ∀ s t : State, exec .load s = .next t →
    (∀ i : Int, i ≠ s.sp → readStack t i = readStack s i) ∧ t.sp = s.sp ∧ SameMemory s t ∧
      t.outputSeq = s.outputSeq ∧ (s.tos ≠ some 0#32 → t.inputQueue = s.inputQueue) ∧ t.pc = s.pc ∧ t.ir = s.ir ∧
      t.instrCount = s.instrCount ∧ SameParameters s t

/-- What POP leaves unchanged (R37, R38, R88): every stack cell, every cell of data memory but the one its second
operand names, and all of data memory when it names the output port or cannot be read; the output unless it
names the output port; the input, `pc`, `ir`, the count and the parameters. -/
def Obligations.FrameOfPop : Prop :=
  ∀ s t : State, exec .pop s = .next t →
    SameStack s t ∧ (∀ a : Word, s.sos = some a → ∀ b : Int, b ≠ a.toInt → t.memory.read b = s.memory.read b) ∧
      (s.sos = none ∨ s.sos = some 1#32 → SameMemory s t) ∧
      (s.sos ≠ some 1#32 → t.outputSeq = s.outputSeq) ∧ t.inputQueue = s.inputQueue ∧ t.pc = s.pc ∧
      t.ir = s.ir ∧ t.instrCount = s.instrCount ∧ SameParameters s t

/-- Every instruction leaves every stack cell unchanged but those the "writes" column of R82 gives it. -/
def Obligations.CellsNotWrittenKeepTheirValues : Prop :=
  ∀ (i : Instr) (s t : State) (j : Int), exec i s = .next t → j ∉ writtenCells i s →
    readStack t j = readStack s j

/-- A completed instruction moves `sp` by the "net sp" column of R82. -/
def Obligations.StackPointerMovesByTheTable : Prop :=
  ∀ (i : Instr) (s t : State), s.runState = .running → exec i s = .next t → t.runState = .running →
    t.sp = s.sp + netSp i

/-! ## Whole-machine rules -/

/-- A completed cycle costs exactly the "Total ticks" of its opcode, whatever the operands (R82, R132; S5). -/
def Obligations.CompletedCycleCostsItsTableTicks : Prop :=
  ∀ (i : Instr) (s t : State), AboutToRun i s → step s = .next t → t.runState = .running →
    t.tick = s.tick + totalTicks i ∧ t.instrCount = s.instrCount + 1

/-- `tick` and `instr_count` never decrease; a step adds at most 4 ticks and counts at most one instruction
(R19, R20, R126). -/
def Obligations.CountersOnlyGrow : Prop :=
  ∀ s t : State, step s = .next t →
    s.tick ≤ t.tick ∧ t.tick ≤ s.tick + 4 ∧ s.instrCount ≤ t.instrCount ∧ t.instrCount ≤ s.instrCount + 1

/-- The output sequence changes only by a POP to address 1 appending the value on top (R25, R38). -/
def Obligations.OutputChangesOnlyByPopToThePort : Prop :=
  ∀ s t : State, step s = .next t → t.outputSeq ≠ s.outputSeq →
    AboutToRun .pop s ∧ s.sos = some 1#32 ∧ ∃ v, s.tos = some v ∧ t.outputSeq = s.outputSeq ++ [v]

/-- The input queue changes only by a LOAD from address 0 removing its front (R24, R38). -/
def Obligations.InputChangesOnlyByLoadFromThePort : Prop :=
  ∀ s t : State, step s = .next t → t.inputQueue ≠ s.inputQueue →
    AboutToRun .load s ∧ s.tos = some 0#32 ∧ ∃ c, s.inputQueue = c :: t.inputQueue

/-- What R28 calls unobservable is: from two running states that differ only in stack cells above `sp`, in
`data_address`, in `ir` and in `memory[0]`, a step leaves states that agree in everything else, and that differ
only so again while the core runs (R28; derived there). Both memories are in canonical form, which every step
keeps. -/
def Obligations.StaleStateIsUnobservable : Prop :=
  ∀ s s' : State, s.memory.wf = true → s'.memory.wf = true → SameObservable s s' → s.runState = .running →
    ∃ t t' : State, step s = .next t ∧ step s' = .next t' ∧
      t' = { t with stack := t'.stack, dataAddress := t'.dataAddress, ir := t'.ir, memory := t'.memory } ∧
      (t.runState = .running → SameObservable t t')

/-- The input and output sequences over whole cycles (R92, R93; derived there): `PUSH 0`, `LOAD` reads one code
in 6 ticks; `PUSH2 1`, `POP` writes the top in 7; each counts 2 instructions. -/
def Obligations.PortSequencesTransferOneValue : Prop :=
  (∀ (s u : State) (c : Word) (rest : List Word), AboutToRun (.push 0#32) s → -1 ≤ s.sp → s.sp + 1 < s.cap →
      s.inputQueue = c :: rest → step s = .next u → AboutToRun .load u →
      ∃ t, step u = .next t ∧ t.sp = s.sp + 1 ∧ t.tos = some c ∧ t.inputQueue = rest ∧ t.tick = s.tick + 6 ∧
        t.instrCount = s.instrCount + 2 ∧ t.runState = .running) ∧
    ∀ (s u : State) (v : Word), AboutToRun (.push2 1#32) s → s.tos = some v → s.sp + 1 < s.cap →
      step s = .next u → AboutToRun .pop u →
      ∃ t, step u = .next t ∧ t.sp = s.sp - 1 ∧ t.outputSeq = s.outputSeq ++ [v] ∧ t.tick = s.tick + 7 ∧
        t.instrCount = s.instrCount + 2 ∧ t.runState = .running

/-! ## Load and result -/

/-- The loader splits the image (R121): `L = img[0]`, `memory[i] = img[1 + i]`, `code[j] = img[L + 1 + j]`, each
record as the word of the instruction it decodes to (the words are the spec's decisions D1 to D3, log 7 and 8).
Every other field is as `State.resetWith` puts it (R119; the values the source does not give are D5, log 4), with
the queue `prepareInput` makes: the input's codes and one 0, so `[0]` with no input file (R124; D15, log 20). -/
def Obligations.LoaderSplitsTheImage : Prop :=
  ∀ (capacity limit : Nat) (img : Image) (text : Option (List InputCode)) (s : State),
    load capacity limit img text = .ready s →
    ∃ (len : Nat) (rest : List Element), img = .cell len :: rest ∧ s.memory.size = len ∧
      s.codeSize + len = rest.length ∧
      (∀ i : Nat, i < len → ∃ v : Word, rest[i]? = some (.cell v.toInt) ∧ s.memory.read i = some v) ∧
      (∀ j : Nat, j < s.codeSize →
        ∃ (e : Element) (i : Instr), rest[len + j]? = some e ∧ decodeElement e = .ok i ∧
          s.code[j]? = some (encode i)) ∧
      s = State.resetWith capacity limit s.memory s.code (prepareInput text)

/-- LoadFault is raised exactly for an image that has not the shape of R122 (its itemised checks are the spec's
decisions D4 and D23): a length, that many 32-bit integers, then records with an integer `index`, a text
`opcode` and an `arg` that is absent or a 32-bit integer, both parts at most `2^31 - 1` long. -/
def Obligations.LoadFaultExactlyForMalformedImages : Prop :=
  ∀ (capacity limit : Nat) (img : Image) (text : Option (List InputCode)),
    load capacity limit img text = .loadFault ↔
      ¬ ∃ (cells : List Int) (records : List Record),
        img = .cell (cells.length : Int) :: (cells.map Element.cell ++ records.map Element.record) ∧
          cells.length ≤ 2147483647 ∧ records.length ≤ 2147483647 ∧
          (∀ v ∈ cells, -2147483648 ≤ v ∧ v ≤ 2147483647) ∧
          ∀ r ∈ records, (∃ n, r.index = .int n) ∧ (∃ name, r.opcode = .text name) ∧
            (r.arg = .missing ∨ ∃ v, r.arg = .int v ∧ -2147483648 ≤ v ∧ v ≤ 2147483647)

/-- A program written as an image and loaded is the program: the round trip of S10 and R56 over a whole image
(its words are D1 to D3, log 7 and 8; the other fields are as reset and input preparation put them, D5 and D15,
log 4 and 20). -/
def Obligations.ImageRoundTrip : Prop :=
  ∀ (capacity limit : Nat) (cells : List Word) (is : List Instr) (text : Option (List InputCode)),
    cells.length ≤ 2147483647 → is.length ≤ 2147483647 →
    load capacity limit (imageOf cells is) text =
      .ready (State.resetWith capacity limit (Memory.ofCells cells) (is.map encode) (prepareInput text))

/-- The result triple is defined exactly after a clean stop, and is what the state holds at the stop (R12, R112,
R127). -/
def Obligations.ResultIsDefinedExactlyAfterCleanStops : Prop :=
  ∀ (lo hi : Int) (s : State) (r : Result),
    s.result lo hi = some r ↔
      (s.runState = .stopped .halt ∨ s.runState = .stopped .inputExhausted ∨
          s.runState = .stopped .tickLimitExceeded) ∧
        r = { text := render lo hi s.outputSeq, instrCount := s.instrCount, tick := s.tick }
end

