-- ==== Sys2Proof/Laws/State.lean ====
section
/-! SUPPORT. One lemma per field per update, and the small lemmas of sequencing. -/

namespace Sys2Proof.Machine

/-! ## Writing a stack cell -/

@[simp] theorem State.setStack_stack (s : State) (i : Int) (v : Word) :
    (s.setStack i v).stack = s.stack.set i.toNat v := rfl
@[simp] theorem State.setStack_sp (s : State) (i : Int) (v : Word) : (s.setStack i v).sp = s.sp := rfl
@[simp] theorem State.setStack_dataAddress (s : State) (i : Int) (v : Word) :
    (s.setStack i v).dataAddress = s.dataAddress := rfl
@[simp] theorem State.setStack_memory (s : State) (i : Int) (v : Word) : (s.setStack i v).memory = s.memory := rfl
@[simp] theorem State.setStack_inputQueue (s : State) (i : Int) (v : Word) :
    (s.setStack i v).inputQueue = s.inputQueue := rfl
@[simp] theorem State.setStack_outputSeq (s : State) (i : Int) (v : Word) :
    (s.setStack i v).outputSeq = s.outputSeq := rfl
@[simp] theorem State.setStack_pc (s : State) (i : Int) (v : Word) : (s.setStack i v).pc = s.pc := rfl
@[simp] theorem State.setStack_ir (s : State) (i : Int) (v : Word) : (s.setStack i v).ir = s.ir := rfl
@[simp] theorem State.setStack_tick (s : State) (i : Int) (v : Word) : (s.setStack i v).tick = s.tick := rfl
@[simp] theorem State.setStack_instrCount (s : State) (i : Int) (v : Word) :
    (s.setStack i v).instrCount = s.instrCount := rfl
@[simp] theorem State.setStack_runState (s : State) (i : Int) (v : Word) :
    (s.setStack i v).runState = s.runState := rfl
@[simp] theorem State.setStack_code (s : State) (i : Int) (v : Word) : (s.setStack i v).code = s.code := rfl
@[simp] theorem State.setStack_tickLimit (s : State) (i : Int) (v : Word) :
    (s.setStack i v).tickLimit = s.tickLimit := rfl
@[simp] theorem State.setStack_cap (s : State) (i : Int) (v : Word) : (s.setStack i v).cap = s.cap := by
  simp [State.cap]

/-! ## The fetch -/

@[simp] theorem State.fetched_stack (s : State) (w : CodeWord) : (s.fetched w).stack = s.stack := rfl
@[simp] theorem State.fetched_sp (s : State) (w : CodeWord) : (s.fetched w).sp = s.sp := rfl
@[simp] theorem State.fetched_dataAddress (s : State) (w : CodeWord) :
    (s.fetched w).dataAddress = s.dataAddress := rfl
@[simp] theorem State.fetched_memory (s : State) (w : CodeWord) : (s.fetched w).memory = s.memory := rfl
@[simp] theorem State.fetched_inputQueue (s : State) (w : CodeWord) :
    (s.fetched w).inputQueue = s.inputQueue := rfl
@[simp] theorem State.fetched_outputSeq (s : State) (w : CodeWord) : (s.fetched w).outputSeq = s.outputSeq := rfl
@[simp] theorem State.fetched_pc (s : State) (w : CodeWord) : (s.fetched w).pc = s.pc + 1#32 := rfl
@[simp] theorem State.fetched_ir (s : State) (w : CodeWord) : (s.fetched w).ir = w := rfl
@[simp] theorem State.fetched_tick (s : State) (w : CodeWord) : (s.fetched w).tick = s.tick + 1 := rfl
@[simp] theorem State.fetched_instrCount (s : State) (w : CodeWord) :
    (s.fetched w).instrCount = s.instrCount := rfl
@[simp] theorem State.fetched_runState (s : State) (w : CodeWord) : (s.fetched w).runState = s.runState := rfl
@[simp] theorem State.fetched_code (s : State) (w : CodeWord) : (s.fetched w).code = s.code := rfl
@[simp] theorem State.fetched_tickLimit (s : State) (w : CodeWord) : (s.fetched w).tickLimit = s.tickLimit := rfl
@[simp] theorem State.fetched_cap (s : State) (w : CodeWord) : (s.fetched w).cap = s.cap := rfl

/-! ## The end of a cycle -/

theorem finishCycle_running {s : State} (h : s.runState = .running) :
    finishCycle s = { s with tick := s.tick + 1, instrCount := s.instrCount + 1 } := by
  simp [finishCycle, h]

theorem finishCycle_stopped {s : State} {c : StopCause} (h : s.runState = .stopped c) : finishCycle s = s := by
  simp [finishCycle, h]

/-! ## Sequencing -/

@[simp] theorem Flow.andThen_goes (s : State) (f : State → Flow) : (Flow.goes s).andThen f = f s := rfl
@[simp] theorem Flow.andThen_raised (s : State) (f : State → Flow) : (Flow.raised s).andThen f = .raised s := rfl
@[simp] theorem Flow.andThen_raise (c : StopCause) (s : State) (f : State → Flow) :
    (raise c s).andThen f = raise c s := rfl
@[simp] theorem Flow.andThen_chargeTick (s : State) (f : State → Flow) :
    (chargeTick s).andThen f = f { s with tick := s.tick + 1 } := rfl
@[simp] theorem Flow.outcome_goes (s : State) : (Flow.goes s).outcome = .next s := rfl
@[simp] theorem Flow.outcome_raised (s : State) : (Flow.raised s).outcome = .next s := rfl
@[simp] theorem Flow.outcome_raise (c : StopCause) (s : State) :
    (raise c s).outcome = .next { s with runState := .stopped c } := rfl
@[simp] theorem Flow.state_goes (s : State) : (Flow.goes s).state = s := rfl
@[simp] theorem Flow.state_raised (s : State) : (Flow.raised s).state = s := rfl
@[simp] theorem Flow.state_raise (c : StopCause) (s : State) :
    (raise c s).state = { s with runState := .stopped c } := rfl

/-- A sequence of signals ends where its first signal raised, or where the rest ends. -/
theorem Flow.andThen_cases (f : Flow) (g : State → Flow) :
    (∃ s, f = .goes s ∧ f.andThen g = g s) ∨ (∃ s, f = .raised s ∧ f.andThen g = .raised s) := by
  cases f with
  | goes s => exact .inl ⟨s, rfl, rfl⟩
  | raised s => exact .inr ⟨s, rfl, rfl⟩

/-- The fetch finds the word `code[pc]` of an instruction about to run. -/
theorem AboutToRun.fetchWord {i : Instr} {s : State} (h : AboutToRun i s) :
    Sys2Proof.Machine.fetchWord s = some (encode i) := by
  simp [Sys2Proof.Machine.fetchWord, h.2.2.2, Int.not_lt.mpr h.2.2.1]

end Sys2Proof.Machine
end

