-- ==== Sys2Proof/Laws/Memory.lean ====
section
/-! SUPPORT. Data memory: every operation keeps the canonical form; a read after a write gives the value written,
and every other cell is left alone. -/

namespace Sys2Proof.Machine

theorem cellsCanonical_mono {lo lo' hi : Nat} {l : List (Nat × Word)} (h : cellsCanonical lo hi l = true)
    (hlo : lo' ≤ lo) : cellsCanonical lo' hi l = true := by
  cases l with
  | nil => rfl
  | cons p rest =>
    simp only [cellsCanonical, Bool.and_eq_true, decide_eq_true_eq] at h ⊢
    exact ⟨⟨⟨by omega, h.1.1.2⟩, h.1.2⟩, h.2⟩

/-- Setting an in-range cell keeps the cells canonical. -/
theorem updateCell_canonical {lo hi a : Nat} {v : Word} (l : List (Nat × Word))
    (h : cellsCanonical lo hi l = true) (hlo : lo ≤ a) (hhi : a < hi) :
    cellsCanonical lo hi (updateCell l a v) = true := by
  induction l generalizing lo with
  | nil =>
    by_cases hv : v = 0#32 <;> simp [updateCell, cellsCanonical, hv, hlo, hhi]
  | cons p rest ih =>
    obtain ⟨b, w⟩ := p
    simp only [cellsCanonical, Bool.and_eq_true, decide_eq_true_eq] at h
    obtain ⟨⟨⟨h1, h2⟩, h3⟩, h4⟩ := h
    simp only [updateCell]
    split
    · split <;> simp [cellsCanonical, *]
    · split
      · subst_vars
        split
        · exact cellsCanonical_mono h4 (by omega)
        · simp [cellsCanonical, *]
      · simp only [cellsCanonical, Bool.and_eq_true, decide_eq_true_eq]
        exact ⟨⟨⟨h1, h2⟩, h3⟩, ih h4 (by omega)⟩

/-- An address below every listed one holds 0. -/
theorem lookupCell_below {lo hi a : Nat} (l : List (Nat × Word)) (h : cellsCanonical lo hi l = true) (ha : a < lo) :
    lookupCell l a = 0#32 := by
  induction l generalizing lo with
  | nil => rfl
  | cons p rest ih =>
    obtain ⟨b, w⟩ := p
    simp only [cellsCanonical, Bool.and_eq_true, decide_eq_true_eq] at h
    obtain ⟨⟨⟨h1, h2⟩, h3⟩, h4⟩ := h
    simp only [lookupCell]
    rw [if_neg (by omega)]
    exact ih h4 (by omega)

/-- The value set is the value held. -/
theorem lookupCell_updateCell_same {lo hi a : Nat} {v : Word} (l : List (Nat × Word))
    (h : cellsCanonical lo hi l = true) : lookupCell (updateCell l a v) a = v := by
  induction l generalizing lo with
  | nil => by_cases hv : v = 0#32 <;> simp [updateCell, lookupCell, hv]
  | cons p rest ih =>
    obtain ⟨b, w⟩ := p
    have hc := h
    simp only [cellsCanonical, Bool.and_eq_true, decide_eq_true_eq] at h
    obtain ⟨⟨⟨h1, h2⟩, h3⟩, h4⟩ := h
    simp only [updateCell]
    split
    · split
      · rename_i hab hv
        simp only [lookupCell]
        rw [if_neg (by omega), lookupCell_below rest h4 (by omega), hv]
      · simp [lookupCell]
    · split
      · split
        · rename_i hv
          rw [lookupCell_below rest h4 (by omega), hv]
        · simp [lookupCell]
      · simp only [lookupCell]
        rw [if_neg (by omega)]
        exact ih h4

/-- Every other address holds what it held. -/
theorem lookupCell_updateCell_other {a b : Nat} {v : Word} (l : List (Nat × Word)) (hab : b ≠ a) :
    lookupCell (updateCell l a v) b = lookupCell l b := by
  induction l with
  | nil => by_cases hv : v = 0#32 <;> simp [updateCell, lookupCell, hv, hab]
  | cons p rest ih =>
    obtain ⟨c, w⟩ := p
    simp only [updateCell]
    split
    · split
      · rfl
      · simp [lookupCell, hab]
    · split
      · subst_vars
        split <;> simp [lookupCell, hab]
      · simp only [lookupCell, ih]

/-- `Memory.set` keeps the canonical form. -/
theorem Memory.wf_set {m : Memory} {a : Int} {v : Word} (h : m.wf = true) (ha : m.inBounds a = true) :
    (m.set a v).wf = true := by
  simp only [Memory.inBounds, Bool.and_eq_true, decide_eq_true_eq] at ha
  have : a.toNat < m.size := by omega
  exact updateCell_canonical m.cells h (Nat.zero_le _) this

@[simp] theorem Memory.set_size (m : Memory) (a : Int) (v : Word) : (m.set a v).size = m.size := rfl

@[simp] theorem Memory.set_inBounds (m : Memory) (a b : Int) (v : Word) :
    (m.set a v).inBounds b = m.inBounds b := rfl

/-- All `MemWrite` can do: in range it answers the memory with that cell set, else nothing. -/
theorem Memory.write_cases (m : Memory) (a : Int) (v : Word) :
    (m.inBounds a = true ∧ m.write a v = some (m.set a v)) ∨ (m.inBounds a = false ∧ m.write a v = none) := by
  cases h : m.inBounds a <;> simp [Memory.write, h]

/-- `Memory.write` keeps the canonical form. -/
theorem Memory.wf_write {m m' : Memory} {a : Int} {v : Word} (h : m.wf = true) (hw : m.write a v = some m') :
    m'.wf = true := by
  obtain ⟨hb, he⟩ | ⟨_, he⟩ := m.write_cases a v
  · rw [he] at hw
    cases hw
    exact Memory.wf_set h hb
  · simp [he] at hw

/-- A read of the cell just set gives the value set. -/
theorem Memory.read_set_same {m : Memory} {a : Int} {v : Word} (h : m.wf = true) (ha : m.inBounds a = true) :
    (m.set a v).read a = some v := by
  simp only [Memory.read, Memory.set_inBounds, ha, if_true]
  exact congrArg some (lookupCell_updateCell_same _ h)

/-- A read of any other address is as before. -/
theorem Memory.read_set_other {m : Memory} {a b : Int} {v : Word} (ha : m.inBounds a = true) (hab : b ≠ a) :
    (m.set a v).read b = m.read b := by
  unfold Memory.read
  by_cases hb : m.inBounds b = true
  · rw [Memory.set_inBounds, if_pos hb, if_pos hb]
    simp only [Memory.inBounds, Bool.and_eq_true, decide_eq_true_eq] at ha hb
    have : b.toNat ≠ a.toNat := by omega
    exact congrArg some (lookupCell_updateCell_other m.cells this)
  · rw [Memory.set_inBounds, if_neg hb, if_neg hb]

/-- All `MemRead` as a signal uses it can do. -/
theorem withMemoryCell_cases (a : Int) (s : State) (use : Word → Flow) :
    (∃ v, s.memory.read a = some v ∧ withMemoryCell a s use = use v) ∨
      (s.memory.read a = none ∧ withMemoryCell a s use = raise (.runtimeFault .memoryBounds) s) := by
  cases h : s.memory.read a <;> simp [withMemoryCell, h]

/-- All `MemWrite` as a signal uses it can do. -/
theorem writeMemoryCell_cases (a : Int) (v : Word) (s : State) :
    (s.memory.inBounds a = true ∧ writeMemoryCell a v s = .goes { s with memory := s.memory.set a v }) ∨
      (s.memory.inBounds a = false ∧ writeMemoryCell a v s = raise (.runtimeFault .memoryBounds) s) := by
  obtain ⟨hb, he⟩ | ⟨hb, he⟩ := s.memory.write_cases a v <;> simp [writeMemoryCell, hb, he]

/-- The loader's cells are canonical. -/
theorem cellsFrom_canonical (a : Nat) (vs : List Word) : cellsCanonical a (a + vs.length) (cellsFrom a vs) = true := by
  induction vs generalizing a with
  | nil => rfl
  | cons v rest ih =>
    have hrest := ih (a + 1)
    rw [show a + 1 + rest.length = a + (v :: rest).length by simp; omega] at hrest
    simp only [cellsFrom]
    split
    · exact cellsCanonical_mono hrest (by omega)
    · simp_all [cellsCanonical]

/-- The loaded memory has the canonical form. -/
theorem Memory.wf_ofCells (vs : List Word) : (Memory.ofCells vs).wf = true := by
  simpa [Memory.ofCells, Memory.wf] using cellsFrom_canonical 0 vs

@[simp] theorem Memory.ofCells_size (vs : List Word) : (Memory.ofCells vs).size = vs.length := rfl

/-- The memory of `State.reset` has the canonical form. -/
theorem Memory.wf_reset : State.reset.memory.wf = true := rfl

end Sys2Proof.Machine
end

