-- ==== Sys2Proof/Laws/Operands.lean ====
section
/-! SUPPORT. Stack cells: what a read and a write can do, and a read after a write. -/

namespace Sys2Proof.Machine

/-- A cell can be read exactly at the indexes `0 .. CAP-1` (R70). -/
theorem readStack_isSome_iff (s : State) (i : Int) : (∃ v, readStack s i = some v) ↔ 0 ≤ i ∧ i < s.cap := by
  unfold readStack State.cap
  split
  · simp; omega
  · simp only [List.getElem?_eq_some_iff]
    constructor
    · rintro ⟨_, h, _⟩
      omega
    · exact fun h => ⟨_, by omega, rfl⟩

theorem readStack_bounds {s : State} {i : Int} {v : Word} (h : readStack s i = some v) : 0 ≤ i ∧ i < s.cap :=
  (readStack_isSome_iff s i).mp ⟨v, h⟩

theorem readStack_eq_none {s : State} {i : Int} (h : i < 0 ∨ s.cap ≤ i) : readStack s i = none := by
  cases hr : readStack s i with
  | none => rfl
  | some v =>
    have := readStack_bounds hr
    omega

/-- All a stack read by a signal can do (R70). -/
theorem withStackCell_cases (i : Int) (s : State) (use : Word → Flow) :
    (∃ v, readStack s i = some v ∧ withStackCell i s use = use v) ∨
      (readStack s i = none ∧ withStackCell i s use = raise (.runtimeFault .stackBounds) s) := by
  cases h : readStack s i <;> simp [withStackCell, h]

/-- All a stack write by a signal can do (R70). -/
theorem writeStackCell_cases (i : Int) (v : Word) (s : State) :
    (0 ≤ i ∧ i < s.cap ∧ writeStackCell i v s = .goes (s.setStack i v)) ∨
      ((i < 0 ∨ s.cap ≤ i) ∧ writeStackCell i v s = raise (.runtimeFault .stackBounds) s) := by
  unfold writeStackCell
  split
  · exact .inl ⟨by omega, by omega, rfl⟩
  · exact .inr ⟨by omega, rfl⟩

/-- A read of the cell just written gives the value written. -/
theorem readStack_setStack_same {s : State} {i : Int} {v : Word} (h0 : 0 ≤ i) (h1 : i < s.cap) :
    readStack (s.setStack i v) i = some v := by
  have : i.toNat < s.stack.length := by simp only [State.cap] at h1; omega
  simp [readStack, Int.not_lt.mpr h0, this]

/-- A read of any other cell is as before. -/
theorem readStack_setStack_other {s : State} {i j : Int} {v : Word} (h0 : 0 ≤ i) (h : j ≠ i) :
    readStack (s.setStack i v) j = readStack s j := by
  unfold readStack
  split
  · rfl
  · rw [State.setStack_stack, List.getElem?_set_ne (by omega)]

/-- All `zero()` can do (R79). -/
theorem withZero_cases (s : State) (use : Bool → Flow) :
    (∃ t, s.tos = some t ∧ withZero s use = use (decide (t = 0#32))) ∨
      (s.tos = none ∧ withZero s use = raise (.runtimeFault .stackBounds) s) :=
  withStackCell_cases _ _ _

end Sys2Proof.Machine
end

