-- ==== Sys2Proof/Laws/Signals.lean ====
section
/-! SUPPORT. For each datapath signal, everything it can do. -/

namespace Sys2Proof.Machine

/-- All a move of `sp` can do (R72). -/
theorem moveSp_cases (d : Int) (s : State) :
    (-1 ≤ s.sp + d ∧ s.sp + d < s.cap ∧ moveSp d s = .goes { s with sp := s.sp + d }) ∨
      ((s.sp + d < -1 ∨ s.cap ≤ s.sp + d) ∧ moveSp d s = raise (.runtimeFault .stackBounds) s) := by
  unfold moveSp
  split
  · exact .inr ⟨by omega, rfl⟩
  · exact .inl ⟨by omega, by omega, rfl⟩

/-- All the latch of an address from a stack cell can do (R71). -/
theorem latchDataAddress_pop_cases (s : State) :
    (∃ a, s.sos = some a ∧ latchDataAddress .pop s = .goes { s with dataAddress := a }) ∨
      (s.sos = none ∧ latchDataAddress .pop s = raise (.runtimeFault .stackBounds) s) :=
  withStackCell_cases _ _ _

theorem latchDataAddress_load_cases (s : State) :
    (∃ a, s.tos = some a ∧ latchDataAddress .load s = .goes { s with dataAddress := a }) ∨
      (s.tos = none ∧ latchDataAddress .load s = raise (.runtimeFault .stackBounds) s) :=
  withStackCell_cases _ _ _

/-- All `input` can do, when the top is a cell of the stack (R77). -/
theorem inputSignal_cases (s : State) (h0 : 0 ≤ s.sp) (h1 : s.sp < s.cap) :
    (∃ c rest, s.inputQueue = c :: rest ∧
        inputSignal s = .goes ({ s with inputQueue := rest }.setStack s.sp c)) ∨
      (s.inputQueue = [] ∧ inputSignal s = raise .inputExhausted s) := by
  unfold inputSignal
  cases hq : s.inputQueue with
  | nil => exact .inr ⟨rfl, rfl⟩
  | cons c rest =>
    refine .inl ⟨c, rest, rfl, ?_⟩
    obtain ⟨_, _, h⟩ | ⟨h, _⟩ := writeStackCell_cases s.sp c { s with inputQueue := rest }
    · exact h
    · simp only [State.cap] at h h1
      omega

/-- All `output` can do (R78). -/
theorem outputSignal_cases (s : State) :
    (∃ v, s.tos = some v ∧ outputSignal s = .goes { s with outputSeq := s.outputSeq ++ [v] }) ∨
      (s.tos = none ∧ outputSignal s = raise (.runtimeFault .stackBounds) s) :=
  withStackCell_cases _ _ _

/-- All a store of the top to the latched address can do (R75). -/
theorem storeTop_cases (s : State) :
    (∃ v, s.tos = some v ∧ s.dataAddress = Config.outputPort ∧
        storeTop s = .goes { s with outputSeq := s.outputSeq ++ [v] }) ∨
      (∃ v, s.tos = some v ∧ s.dataAddress ≠ Config.outputPort ∧ s.memory.inBounds s.dataAddress.toInt = true ∧
        storeTop s = .goes { s with memory := s.memory.set s.dataAddress.toInt v }) ∨
      (s.dataAddress ≠ Config.outputPort ∧ s.memory.inBounds s.dataAddress.toInt = false ∧
        storeTop s = raise (.runtimeFault .memoryBounds) s) ∨
      (s.tos = none ∧ storeTop s = raise (.runtimeFault .stackBounds) s) := by
  unfold storeTop
  split
  · rename_i hp
    obtain ⟨v, hv, he⟩ | ⟨hv, he⟩ := outputSignal_cases s
    · exact .inl ⟨v, hv, hp, he⟩
    · exact .inr (.inr (.inr ⟨hv, he⟩))
  · rename_i hp
    obtain ⟨v, hv, he⟩ | ⟨hv, he⟩ :=
      withStackCell_cases s.sp s fun v => writeMemoryCell s.dataAddress.toInt v s
    · rw [he]
      obtain ⟨hb, hw⟩ | ⟨hb, hw⟩ := writeMemoryCell_cases s.dataAddress.toInt v s
      · exact .inr (.inl ⟨v, hv, hp, hb, hw⟩)
      · exact .inr (.inr (.inl ⟨hp, hb, hw⟩))
    · exact .inr (.inr (.inr ⟨hv, he⟩))

/-- All the load into the top can do, when the top is a cell of the stack (R73). -/
theorem loadToTop_cases (s : State) (h0 : 0 ≤ s.sp) (h1 : s.sp < s.cap) :
    (∃ c rest, s.dataAddress = Config.inputPort ∧ s.inputQueue = c :: rest ∧
        loadToTop s = .goes ({ s with inputQueue := rest }.setStack s.sp c)) ∨
      (s.dataAddress = Config.inputPort ∧ s.inputQueue = [] ∧ loadToTop s = raise .inputExhausted s) ∨
      (∃ v, s.dataAddress ≠ Config.inputPort ∧ s.memory.read s.dataAddress.toInt = some v ∧
        loadToTop s = .goes (s.setStack s.sp v)) ∨
      (s.dataAddress ≠ Config.inputPort ∧ s.memory.read s.dataAddress.toInt = none ∧
        loadToTop s = raise (.runtimeFault .memoryBounds) s) := by
  unfold loadToTop
  split
  · rename_i hp
    obtain ⟨c, rest, hq, he⟩ | ⟨hq, he⟩ := inputSignal_cases s h0 h1
    · exact .inl ⟨c, rest, hp, hq, he⟩
    · exact .inr (.inl ⟨hp, hq, he⟩)
  · rename_i hp
    obtain ⟨v, hv, he⟩ | ⟨hv, he⟩ :=
      withMemoryCell_cases s.dataAddress.toInt s fun v => writeStackCell s.sp v s
    · refine .inr (.inr (.inl ⟨v, hp, hv, ?_⟩))
      obtain ⟨_, _, h⟩ | ⟨h, _⟩ := writeStackCell_cases s.sp v s
      · rw [he, h]
      · omega
    · exact .inr (.inr (.inr ⟨hp, hv, he⟩))

/-- All the copy of the second cell to the top can do, when the top is a cell of the stack (R73). -/
theorem copySecondToTop_cases (s : State) (h0 : 0 ≤ s.sp) (h1 : s.sp < s.cap) :
    (∃ v, s.sos = some v ∧ copySecondToTop s = .goes (s.setStack s.sp v)) ∨
      (s.sos = none ∧ copySecondToTop s = raise (.runtimeFault .stackBounds) s) := by
  obtain ⟨v, hv, he⟩ | ⟨hv, he⟩ := withStackCell_cases (s.sp - 1) s fun v => writeStackCell s.sp v s
  · refine .inl ⟨v, hv, ?_⟩
    obtain ⟨_, _, h⟩ | ⟨h, _⟩ := writeStackCell_cases s.sp v s
    · exact he.trans h
    · omega
  · exact .inr ⟨hv, he⟩

/-- All the ALU's write to the second cell can do (R74). -/
theorem aluToSecond_cases (op : AluOp) (s : State) :
    (∃ a b, s.sos = some a ∧ s.tos = some b ∧
        aluToSecond op s = .goes (s.setStack (s.sp - 1) (alu op b a))) ∨
      ((s.sos = none ∨ s.tos = none) ∧ aluToSecond op s = raise (.runtimeFault .stackBounds) s) := by
  unfold aluToSecond
  obtain ⟨b, hb, he⟩ | ⟨hb, he⟩ := withStackCell_cases s.sp s fun left =>
    withStackCell (s.sp - 1) s fun right => writeStackCell (s.sp - 1) (alu op left right) s
  · rw [he]
    obtain ⟨a, ha, he'⟩ | ⟨ha, he'⟩ := withStackCell_cases (s.sp - 1) s fun right =>
      writeStackCell (s.sp - 1) (alu op b right) s
    · refine .inl ⟨a, b, ha, hb, ?_⟩
      have hbounds := readStack_bounds ha
      obtain ⟨_, _, h⟩ | ⟨h, _⟩ := writeStackCell_cases (s.sp - 1) (alu op b a) s
      · rw [he', h]
      · omega
    · exact .inr ⟨.inl ha, he'⟩
  · exact .inr ⟨.inr hb, he⟩

/-- All INC's write to the top can do (R73). -/
theorem latchTopOfStack_inc_cases (s : State) :
    (∃ b, s.tos = some b ∧ latchTopOfStack .inc s = .goes (s.setStack s.sp (wrap32 (b.toInt + 1)))) ∨
      (s.tos = none ∧ latchTopOfStack .inc s = raise (.runtimeFault .stackBounds) s) := by
  obtain ⟨b, hb, he⟩ | ⟨hb, he⟩ := withStackCell_cases s.sp s fun v =>
    writeStackCell s.sp (wrap32 (v.toInt + 1)) s
  · refine .inl ⟨b, hb, ?_⟩
    have hbounds := readStack_bounds hb
    obtain ⟨_, _, h⟩ | ⟨h, _⟩ := writeStackCell_cases s.sp (wrap32 (b.toInt + 1)) s
    · exact he.trans h
    · omega
  · exact .inr ⟨hb, he⟩

end Sys2Proof.Machine
end

