-- ==== Sys2Proof/Laws/PerInstr.lean ====
section
/-! SUPPORT. Per-instruction laws about the words of the encoder. -/

namespace Sys2Proof.Laws

/-- Reading back the two fields of a word put together from them (R49). -/
theorem fields_append (op : BitVec 8) (a : Word) :
    opField (op ++ a) = op ∧ argField (op ++ a) = a := by
  constructor
  · unfold opField
    exact BitVec.extractLsb'_append_eq_left
  · unfold argField
    exact BitVec.extractLsb'_append_eq_right

/-- The word of an instruction carries its opcode number in bits 39:32 and its argument, or 0, in bits 31:0
(R49, R51, R52). -/
def Fields.Statement (i : Instr) : Prop :=
  opField (encode i) = opNumberOf i ∧ argField (encode i) = argOf i

theorem Fields.halt : Fields.Statement .halt := fields_append _ _
theorem Fields.jump (arg : Word) : Fields.Statement (.jump arg) := fields_append _ _
theorem Fields.jz (arg : Word) : Fields.Statement (.jz arg) := fields_append _ _
theorem Fields.push (arg : Word) : Fields.Statement (.push arg) := fields_append _ _
theorem Fields.push2 (arg : Word) : Fields.Statement (.push2 arg) := fields_append _ _
theorem Fields.pop : Fields.Statement .pop := fields_append _ _
theorem Fields.dup : Fields.Statement .dup := fields_append _ _
theorem Fields.drop : Fields.Statement .drop := fields_append _ _
theorem Fields.load : Fields.Statement .load := fields_append _ _
theorem Fields.inc : Fields.Statement .inc := fields_append _ _
theorem Fields.add : Fields.Statement .add := fields_append _ _
theorem Fields.div : Fields.Statement .div := fields_append _ _
theorem Fields.mod : Fields.Statement .mod := fields_append _ _
theorem Fields.number (arg : Word) : Fields.Statement (.number arg) := fields_append _ _
theorem Fields.string (arg : Word) : Fields.Statement (.string arg) := fields_append _ _
theorem Fields.buffer (arg : Word) : Fields.Statement (.buffer arg) := fields_append _ _

end Sys2Proof.Laws
end

