-- ==== Sys2Proof/Tests/Slice0.lean ====
section
/-! SUPPORT. Tests. Expected values are those of 95_test_vectors.md, whose row a name or comment gives (`vc2` is
V-C2), of R99, or of the rule named; the witnesses show that the hypotheses of each obligation can be met. -/

namespace Sys2Proof.Tests

open Sys2Proof Sys2Proof.Machine

/-! ## Decoding: words written out from V-E1 to V-E16 and R49 -/

theorem test_decode_halt : decode 0x0000000000#40 = .ok .halt := by decide
theorem test_decode_jump : decode 0x0100000005#40 = .ok (.jump 5#32) := by decide
theorem test_decode_jz : decode 0x020000000C#40 = .ok (.jz 12#32) := by decide
theorem test_decode_push : decode 0x03FFFFFFF9#40 = .ok (.push (BitVec.ofInt 32 (-7))) := by decide
theorem test_decode_push_min : decode 0x0380000000#40 = .ok (.push (BitVec.ofInt 32 (-2147483648))) := by decide
theorem test_decode_push_zero : decode 0x0300000000#40 = .ok (.push 0#32) := by decide
theorem test_decode_push2 : decode 0x0400000001#40 = .ok (.push2 1#32) := by decide
theorem test_decode_pop : decode 0x0500000000#40 = .ok .pop := by decide
theorem test_decode_dup : decode 0x0600000000#40 = .ok .dup := by decide
theorem test_decode_drop : decode 0x0700000000#40 = .ok .drop := by decide
theorem test_decode_load : decode 0x0800000000#40 = .ok .load := by decide
theorem test_decode_inc : decode 0x0900000000#40 = .ok .inc := by decide
theorem test_decode_add : decode 0x0A00000000#40 = .ok .add := by decide
theorem test_decode_div : decode 0x0B00000000#40 = .ok .div := by decide
theorem test_decode_mod : decode 0x0C00000000#40 = .ok .mod := by decide
/-- V-F1. -/
theorem test_decode_number : decode 0x0D00000005#40 = .ok (.number 5#32) := by decide
theorem test_decode_string : decode 0x0E00000003#40 = .ok (.string 3#32) := by decide
theorem test_decode_buffer : decode 0x0F00000004#40 = .ok (.buffer 4#32) := by decide
/-- V-F4, and the top of the unassigned range (R54). -/
theorem test_decode_unassigned :
    decode 0x1000000000#40 = .error .unrecognised ∧ decode 0xFF00000000#40 = .error .unrecognised := by decide
/-- V-F4. -/
theorem test_decode_stray_bits :
    decode 0x0A00000001#40 = .error .arity ∧ decode 0x0080000000#40 = .error .arity := by decide
/-- The host's numbering: bit 0 is the least significant bit of the 40-bit word. -/
theorem test_table_word :
    decodeTableWord 40 0x03FFFFFFF9 = some (.push (BitVec.ofInt 32 (-7))) ∧
      decodeTableWord 40 0x0A00000001 = none ∧ decodeTableWord 40 0x0700000000 = some .drop := by decide
/-- V-F2, V-F3: the record form. -/
theorem test_record_faults :
    decodeRecord "NOP" none = .error .unrecognised ∧ decodeRecord "PUSH" none = .error .arity ∧
      decodeRecord "ADD" (some 1#32) = .error .arity ∧ decodeRecord "HALT" (some 0#32) = .error .arity := by decide
/-- R53: declarative records with or without an argument pass the codec. -/
theorem test_record_declarative :
    decodeRecord "NUMBER" (some 5#32) = .ok (.number 5#32) ∧ decodeRecord "BUFFER" none = .ok (.buffer 0#32) := by
  decide

/-! ## Well-formedness: an ill-formed term for each check -/

def okRecord : Record := { index := .int 0, opcode := .text "PUSH", arg := .int 3 }

theorem test_wellFormed_accepts :
    Image.wellFormed [.cell 1, .cell (-5), .record okRecord] = true ∧ Image.wellFormed [.cell 0] = true ∧
      CodeWord.wellFormed 0x03FFFFFFFF#40 = true ∧ CodeWord.wellFormed 0x0500000000#40 = true := by decide
theorem test_wellFormed_word_opcode : CodeWord.wellFormed 0x1000000000#40 = false := by decide
theorem test_wellFormed_word_argument : CodeWord.wellFormed 0x0500000001#40 = false := by decide
theorem test_wellFormed_record_index :
    ({ okRecord with index := .missing }).wellFormed = false ∧
      ({ okRecord with index := .text "0" }).wellFormed = false := by decide
theorem test_wellFormed_record_opcode :
    ({ okRecord with opcode := .int 3 }).wellFormed = false ∧
      ({ okRecord with opcode := .missing }).wellFormed = false := by decide
theorem test_wellFormed_record_argument :
    ({ okRecord with arg := .text "label" }).wellFormed = false ∧
      ({ okRecord with arg := .int 2147483648 }).wellFormed = false ∧
      ({ okRecord with arg := .int (-2147483649) }).wellFormed = false := by decide
/-- V-F5 and the other checks of R122: no length; a claimed length past the end; a negative one; one past
`2^31 - 1`; a data cell out of range; a record in the data segment; an integer in the code. -/
theorem test_wellFormed_image_shape :
    Image.wellFormed [] = false ∧ Image.wellFormed [.record okRecord] = false ∧
      Image.wellFormed [.cell 3, .cell 0, .cell 0] = false ∧ Image.wellFormed [.cell (-1)] = false ∧
      Image.wellFormed [.cell 2147483648] = false := by decide
theorem test_wellFormed_image_elements :
    Image.wellFormed [.cell 1, .cell 2147483648] = false ∧ Image.wellFormed [.cell 1, .record okRecord] = false ∧
      Image.wellFormed [.cell 0, .cell 7] = false ∧
      Image.wellFormed [.cell 0, .record { okRecord with arg := .text "x" }] = false := by decide

/-! ## One step on a small state -/

/-- The next state of an outcome. -/
def nextOf (o : Host.Outcome State Fault Refusal) : Option State :=
  match o with
  | .next t => some t
  | .fault _ => none
  | .refused _ => none

/-- A core about to run `i` from `code[0]`, `N = 1`, with a given `sp` and given stack cells. -/
def about (i : Instr) (sp : Int) (stack : List Int) : State :=
  { State.resetWith 0 1000 (Memory.ofCells []) [encode i] [0#32] with
    sp := sp
    stack := stack.map (BitVec.ofInt 32) }

def withMemory (s : State) (cells : List Int) : State :=
  { s with memory := Memory.ofCells (cells.map (BitVec.ofInt 32)) }

def withQueue (s : State) (codes : List Int) : State := { s with inputQueue := codes.map (BitVec.ofInt 32) }

/-- What most vectors name: `sp`, the stack cells, `tick`, `instr_count` and `run_state`. -/
def looks (s : State) : Option (Int × List Int × Nat × Nat × RunState) :=
  (nextOf (step s)).map fun t => (t.sp, t.stack.map BitVec.toInt, t.tick, t.instrCount, t.runState)

/-- `pc`, `data_address`, the output and the input queue after one step. -/
def rest (s : State) : Option (Int × Int × List Int × List Int) :=
  (nextOf (step s)).map fun t =>
    (t.pc.toInt, t.dataAddress.toInt, t.outputSeq.map BitVec.toInt, t.inputQueue.map BitVec.toInt)

/-- A cell of data memory after one step. -/
def cellAfter (s : State) (a : Int) : Option Int :=
  (nextOf (step s)).bind fun t => (t.memory.read a).map BitVec.toInt

theorem test_vc1_halt :
    looks (about .halt (-1) [-1, -1, -1, -1]) = some (-1, [-1, -1, -1, -1], 1, 0, .stopped .halt) ∧
      rest (about .halt (-1) [-1, -1, -1, -1]) = some (1, 0, [], [0]) := by decide
theorem test_vc7_jump_backward :
    looks (about (.jump (BitVec.ofInt 32 (-1))) (-1) [-1]) = some (-1, [-1], 2, 1, .running) ∧
      rest (about (.jump (BitVec.ofInt 32 (-1))) (-1) [-1]) = some (-1, 0, [], [0]) := by decide
theorem test_vc2_vc4_jz :
    rest (about (.jz 6#32) 0 [0, -1]) = some (6, 0, [], [0]) ∧
      rest (about (.jz 6#32) 0 [-1, -1]) = some (1, 0, [], [0]) := by decide
theorem test_vc5_jz_empty :
    looks (about (.jz 6#32) (-1) [-1]) = some (-1, [-1], 1, 0, .stopped (.runtimeFault .stackBounds)) := by decide
theorem test_vs1_push :
    looks (about (.push 3#32) (-1) [-1, -1, -1, -1]) = some (0, [3, -1, -1, -1], 3, 1, .running) := by decide
theorem test_vs3_push_full :
    looks (about (.push 5#32) 1 [1, 2]) = some (1, [1, 2], 1, 0, .stopped (.runtimeFault .stackBounds)) := by decide
theorem test_vs5_push2 :
    looks (about (.push2 1#32) 0 [7, -1, -1, -1]) = some (1, [1, 7, -1, -1], 4, 1, .running) := by decide
theorem test_vs6_push2_empty :
    looks (about (.push2 1#32) (-1) [-1, -1, -1, -1]) =
      some (0, [-1, -1, -1, -1], 2, 0, .stopped (.runtimeFault .stackBounds)) := by decide
theorem test_vs16_pop :
    looks (withMemory (about .pop 2 [5, 2, 7, -1]) [0, 0, 0]) = some (0, [5, 2, 7, -1], 3, 1, .running) ∧
      cellAfter (withMemory (about .pop 2 [5, 2, 7, -1]) [0, 0, 0]) 2 = some 7 := by decide
theorem test_vs9_vs10_pop_ports :
    rest (about .pop 1 [1, 7, -1, -1]) = some (1, 1, [7], [0]) ∧
      rest (withMemory (about .pop 1 [0, 7, -1, -1]) [9, 9]) = some (1, 0, [], [0]) ∧
      cellAfter (withMemory (about .pop 1 [0, 7, -1, -1]) [9, 9]) 0 = some 7 := by decide
theorem test_vs17_dup :
    looks (about .dup 0 [5, -1, -1, -1]) = some (1, [5, 5, -1, -1], 3, 1, .running) := by decide
theorem test_vs19_dup_full :
    looks (about .dup 0 [5]) = some (0, [5], 1, 0, .stopped (.runtimeFault .stackBounds)) := by decide
theorem test_vs20_drop :
    looks (about .drop 2 [1, 2, 3, -1]) = some (1, [1, 2, 3, -1], 2, 1, .running) := by decide
theorem test_vs22_drop_empty :
    looks (about .drop (-1) [1]) = some (-1, [1], 1, 0, .stopped (.runtimeFault .stackBounds)) := by decide
theorem test_vm1_vm5_load :
    looks (withMemory (about .load 0 [3]) [0, 0, 0, 79]) = some (0, [79], 3, 1, .running) ∧
      looks (withMemory (about .load 0 [1]) [11, 22]) = some (0, [22], 3, 1, .running) := by decide
theorem test_vm3_vm4_load_port :
    looks (withQueue (about .load 0 [0]) []) = some (0, [0], 2, 0, .stopped .inputExhausted) ∧
      looks (withQueue (about .load 0 [0]) [65, 0]) = some (0, [65], 3, 1, .running) := by decide
/-- V-M8. -/
theorem test_vm8_memory_bounds :
    looks (withMemory (about .load 0 [-5]) [1, 1]) =
        some (0, [-5], 2, 0, .stopped (.runtimeFault .memoryBounds)) ∧
      rest (withMemory (about .load 0 [-5]) [1, 1]) = some (1, -5, [], [0]) := by decide
/-- V-S12. -/
theorem test_vs12_memory_bounds :
    looks (withMemory (about .pop 1 [3, 7]) [0, 0, 0]) =
      some (1, [3, 7], 2, 0, .stopped (.runtimeFault .memoryBounds)) := by decide
theorem test_va20_inc :
    looks (about .inc 0 [2147483647]) = some (0, [-2147483648], 2, 1, .running) := by decide
theorem test_va2_add :
    looks (about .add 1 [2147483647, 1, -1]) = some (0, [-2147483648, 1, -1], 2, 1, .running) := by decide
theorem test_va23_add_shallow :
    looks (about .add 0 [3, -1]) = some (0, [3, -1], 1, 0, .stopped (.runtimeFault .stackBounds)) := by decide
theorem test_va17_div :
    looks (about .div 1 [2, 7]) = some (0, [0, 7], 2, 1, .running) := by decide
theorem test_va18_mod :
    looks (about .mod 1 [2, 7]) = some (0, [2, 7], 2, 1, .running) := by decide
/-- V-F1, and the other two by R53. -/
theorem test_vf1_declarative :
    looks (about (.number 5#32) (-1) [-1]) = some (-1, [-1], 1, 0, .stopped .decodeFault) ∧
      rest (about (.number 5#32) (-1) [-1]) = some (1, 0, [], [0]) := by decide
theorem test_declarative_string_buffer :
    looks (about (.string 1#32) (-1) [-1]) = some (-1, [-1], 1, 0, .stopped .decodeFault) ∧
      looks (about (.buffer 1#32) (-1) [-1]) = some (-1, [-1], 1, 0, .stopped .decodeFault) := by decide
/-- V-F6 (R120): no code. -/
theorem test_vf6_no_code :
    (nextOf (step State.reset)).map (fun t => (t.tick, t.pc.toInt, t.runState)) =
      some (0, 0, .stopped (.runtimeFault .pcBounds)) := by decide
/-- V-F9: a ceiling of 0. -/
theorem test_vf9_ceiling_zero :
    (nextOf (step { about .halt (-1) [] with tickLimit := 0 })).map (fun t => (t.tick, t.pc.toInt, t.runState)) =
      some (0, 0, .stopped .tickLimitExceeded) := by decide
/-- V-F4 at dispatch: an undecodable word in code memory. -/
theorem test_undecodable_word :
    (nextOf (step { about .halt (-1) [] with code := [0x0A00000001#40] })).map
        (fun t => (t.tick, t.pc.toInt, t.instrCount, t.runState)) = some (1, 1, 0, .stopped .decodeFault) := by decide
/-- The host's placing: the very next step after reset runs the word. -/
theorem test_withFetchWord :
    (nextOf (step (State.reset.withFetchWord 40 0x03FFFFFFF9))).map (fun t => (t.sp, t.stack.map BitVec.toInt)) =
      some (0, [-7, -1, -1, -1]) := by decide

/-! ## The ALU: the rows of R99 -/

/-- One row of R99: dividend, divisor, quotient, remainder. -/
def r99Row (a b q r : Int) : Bool :=
  (alu .div (BitVec.ofInt 32 b) (BitVec.ofInt 32 a)).toInt == q &&
    (alu .mod (BitVec.ofInt 32 b) (BitVec.ofInt 32 a)).toInt == r

theorem test_r99_small :
    r99Row 7 2 3 1 = true ∧ r99Row (-7) 2 (-4) 1 = true ∧ r99Row 7 (-2) (-4) (-1) = true ∧
      r99Row (-7) (-2) 3 (-1) = true ∧ r99Row 6 3 2 0 = true ∧ r99Row (-6) 3 (-2) 0 = true ∧
      r99Row 1 2 0 1 = true ∧ r99Row (-1) 2 (-1) 1 = true ∧ r99Row 1 (-2) (-1) (-1) = true := by decide
theorem test_r99_zero :
    r99Row 0 5 0 0 = true ∧ r99Row 0 (-5) 0 0 = true ∧ r99Row 5 0 (-1) (-1) = true ∧
      r99Row (-5) 0 (-1) (-1) = true ∧ r99Row 0 0 (-1) (-1) = true := by decide
theorem test_r99_limits :
    r99Row (-2147483648) (-1) (-2147483648) 0 = true ∧ r99Row (-2147483648) 1 (-2147483648) 0 = true ∧
      r99Row 2147483647 (-1) (-2147483647) 0 = true ∧
      r99Row (-2147483648) 2147483647 (-2) 2147483646 = true ∧
      r99Row 2147483647 (-2147483648) (-1) (-1) = true ∧
      r99Row (-2147483648) (-2147483648) 1 0 = true := by decide

/-! ## Load and result -/

def loadImage (img : Image) : LoadResult := load 4 1000 img none

/-- V-F5, V-F6. -/
theorem test_vf5_vf6_load :
    loadImage [.cell 3, .cell 0, .cell 0] = .loadFault ∧ loadImage [.cell 1, .cell 2147483648] = .loadFault ∧
      loadImage [.cell 0] = .ready (State.resetWith 4 1000 (Memory.ofCells []) [] [0#32]) := by decide
/-- V-F2, V-F3. -/
theorem test_vf2_vf3_load :
    loadImage [.cell 0, .record { index := .int 0, opcode := .text "NOP", arg := .missing }] =
        .decodeFault .unrecognised ∧
      loadImage [.cell 0, .record { index := .int 0, opcode := .text "PUSH", arg := .missing }] =
        .decodeFault .arity := by decide
/-- P3's first data cells and R124: the split of the image, and the input with its appended 0. -/
theorem test_load_splits :
    load 4 1000 [.cell 3, .cell 0, .cell 0, .cell 3, .record okRecord] (some [104, 105]) =
      .ready (State.resetWith 4 1000 { size := 3, cells := [(2, 3#32)] } [0x0300000003#40]
        [104#32, 105#32, 0#32]) := by decide
/-- V-F11: `"Hi10-47~12731 "`. -/
theorem test_vf11_render :
    render Config.printableLo Config.printableHi
        ([72, 105, 10, -4, 7, 126, 127, 31, 32].map (BitVec.ofInt 32)) =
      [72, 105, 49, 48, 45, 52, 55, 126, 49, 50, 55, 51, 49, 32] := by decide
/-- R48: a data segment. -/
theorem test_dataSegment :
    dataSegment 0#32 0#32 [.number 3#32, .string [79#32, 75#32], .buffer 2] =
      [0#32, 0#32, 3#32, 79#32, 75#32, 0#32, 0#32, 0#32] := by decide

/-! ## Witnesses: the hypotheses of each obligation, met together -/

theorem witness_EncodeOfDecodeIsIdentity : decode 0x0500000000#40 = .ok .pop := by decide

/-- The premises of DecoderReadsOpAndArgFields. -/
def fieldsAre (w : CodeWord) (op u : Nat) (a : Int) : Bool :=
  decide (op = w.toNat / 4294967296) && decide (u = w.toNat % 4294967296) &&
    decide ((BitVec.ofInt 32 a).toInt = (if u < 2147483648 then (u : Int) else (u : Int) - 4294967296))

theorem witness_DecoderReadsOpAndArgFields_with_argument :
    fieldsAre 0x01FFFFFFFF#40 1 4294967295 (-1) = true ∧ fieldsAre 0x027FFFFFFF#40 2 2147483647 2147483647 = true ∧
      fieldsAre 0x0380000000#40 3 2147483648 (-2147483648) = true ∧ fieldsAre 0x0400000000#40 4 0 0 = true ∧
      fieldsAre 0x0D00000000#40 13 0 0 = true ∧ fieldsAre 0x0EFFFFFFFF#40 14 4294967295 (-1) = true ∧
      fieldsAre 0x0F80000000#40 15 2147483648 (-2147483648) = true := by decide
theorem witness_DecoderReadsOpAndArgFields_no_argument :
    fieldsAre 0x0000000000#40 0 0 0 = true ∧ fieldsAre 0x0500000000#40 5 0 0 = true ∧
      fieldsAre 0x0600000000#40 6 0 0 = true ∧ fieldsAre 0x0700000000#40 7 0 0 = true ∧
      fieldsAre 0x0800000000#40 8 0 0 = true ∧ fieldsAre 0x0900000000#40 9 0 0 = true ∧
      fieldsAre 0x0A00000000#40 10 0 0 = true ∧ fieldsAre 0x0B00000000#40 11 0 0 = true ∧
      fieldsAre 0x0C00000000#40 12 0 0 = true := by decide
theorem witness_DecoderReadsOpAndArgFields_faults :
    fieldsAre 0x0000000001#40 0 1 1 = true ∧ fieldsAre 0x05FFFFFFFF#40 5 4294967295 (-1) = true ∧
      fieldsAre 0x0C00000001#40 12 1 1 = true ∧ fieldsAre 0x1000000000#40 16 0 0 = true ∧
      fieldsAre 0xFFFFFFFFFF#40 255 4294967295 (-1) = true := by decide

theorem witness_RecordArityAndMnemonicFaults_unknown : ∀ o : Opcode, "NOP" ≠ o.name := by
  intro o
  cases o <;> decide
theorem witness_RecordArityAndMnemonicFaults_executable :
    decodeRecord "PUSH" (some 3#32) = .ok (.push 3#32) ∧ isDeclarative (.push 3#32) = false := by decide

theorem witness_StepRunsTheDecodedInstruction_completes :
    ∃ t, (about .drop 0 [1]).runState = .running ∧ (about .drop 0 [1]).code[0]? = some 0x0700000000#40 ∧
      decode 0x0700000000#40 = .ok .drop ∧
      exec .drop ((about .drop 0 [1]).fetched 0x0700000000#40) = .next t ∧ t.runState = .running :=
  ⟨_, rfl, rfl, rfl, rfl, rfl⟩
theorem witness_StepRunsTheDecodedInstruction_stops :
    ∃ t, (about .halt 0 [1]).runState = .running ∧ (about .halt 0 [1]).code[0]? = some 0x0000000000#40 ∧
      decode 0x0000000000#40 = .ok .halt ∧
      exec .halt ((about .halt 0 [1]).fetched 0x0000000000#40) = .next t ∧ t.runState ≠ .running :=
  ⟨_, rfl, rfl, rfl, rfl, by decide⟩

/-- A core with one undecodable word at `code[0]`. -/
def undecodable : State := { about .halt (-1) [] with code := [0x1000000000#40] }

theorem witness_UndecodableWordRaisesDecodeFault :
    undecodable.runState = .running ∧ undecodable.tick < undecodable.tickLimit ∧ 0 ≤ undecodable.pc.toInt ∧
      undecodable.code[undecodable.pc.toInt.toNat]? = some 0x1000000000#40 ∧
      decode 0x1000000000#40 = .error .unrecognised := by decide

/-- A running core with one instruction and a given `pc`. -/
def atPc (pc : Int) : State := { about .halt (-1) [] with pc := BitVec.ofInt 32 pc }

theorem witness_FetchOutsideCodeRaisesPcBounds :
    (atPc (-1)).runState = .running ∧ (atPc (-1)).tick < (atPc (-1)).tickLimit ∧ (atPc (-1)).pc.toInt < 0 ∧
      (atPc 1).tick < (atPc 1).tickLimit ∧ ((atPc 1).codeSize : Int) ≤ (atPc 1).pc.toInt := by decide

/-- A core at its ceiling. -/
def atCeiling : State := { about .halt (-1) [] with tick := 1000 }

theorem witness_TickCeilingStopsExactlyAtABoundary :
    atCeiling.runState = .running ∧ atCeiling.tickLimit ≤ atCeiling.tick ∧
      ∃ t, step atCeiling = .next t ∧ t.runState = .stopped .tickLimitExceeded := ⟨rfl, by decide, _, rfl, rfl⟩
theorem witness_StoppedCoreHasNoStep :
    ({ about .halt (-1) [] with runState := .stopped .halt }).runState = .stopped .halt := by decide
theorem witness_ResetHoldsTheSpecValues : (0 : Int) ≤ 3 ∧ (3 : Int) < (4 : Nat) := by decide
theorem witness_LoadedCoreSatisfiesTheInvariant : ∃ s, loadImage [.cell 1, .cell 7, .record okRecord] = .ready s :=
  ⟨_, rfl⟩
theorem witness_StepKeepsTheInvariant :
    (about .drop 0 [1]).Inv ∧ ∃ t, step (about .drop 0 [1]) = .next t := by
  refine ⟨?_, _, rfl⟩
  unfold State.Inv
  decide
theorem witness_StepKeepsTheParameters : ∃ t, step (about .drop 0 [1]) = .next t := ⟨_, rfl⟩

/-- Every state `about i sp stack` is about to run `i`. -/
theorem about_runs (i : Instr) (sp : Int) (stack : List Int) : AboutToRun i (about i sp stack) :=
  ⟨rfl, by show (0 : Nat) < 1000; decide, by show (0 : Int) ≤ (0#32).toInt; decide, rfl⟩

theorem witness_HaltStopsTheCore : AboutToRun .halt (about .halt (-1) []) := about_runs _ _ _
theorem witness_JumpLatchesItsTarget :
    AboutToRun (.jump 1#32) (about (.jump 1#32) (-1) []) ∧
      ((about (.jump 1#32) (-1) []).codeSize : Int) ≤ (1#32 : Word).toInt ∧
      AboutToRun (.jump (BitVec.ofInt 32 (-1))) (about (.jump (BitVec.ofInt 32 (-1))) (-1) []) ∧
      (BitVec.ofInt 32 (-1)).toInt < 0 := ⟨about_runs _ _ _, by decide, about_runs _ _ _, by decide⟩
theorem witness_JzJumpsExactlyOnZero :
    (about (.jz 6#32) 0 [0]).tos = some 0#32 ∧ (about (.jz 6#32) 0 [1]).tos = some 1#32 ∧ (1#32 : Word) ≠ 0#32 := by
  decide
theorem witness_DeclarativeOpcodesRaiseDecodeFault :
    isDeclarative (.number 5#32) = true ∧ isDeclarative (.string 5#32) = true ∧
      isDeclarative (.buffer 5#32) = true := by decide
theorem witness_PushPlacesItsLiteralOnTop_room :
    AboutToRun (.push 3#32) (about (.push 3#32) (-1) [-1]) ∧ -1 ≤ (about (.push 3#32) (-1) [-1]).sp ∧
      (about (.push 3#32) (-1) [-1]).sp + 1 < (about (.push 3#32) (-1) [-1]).cap :=
  ⟨about_runs _ _ _, by decide, by decide⟩
theorem witness_PushPlacesItsLiteralOnTop_full :
    -1 ≤ (about (.push 3#32) (-1) []).sp ∧
      (about (.push 3#32) (-1) []).sp = ((about (.push 3#32) (-1) []).cap : Int) - 1 := by decide
theorem witness_Push2SlidesItsLiteralUnderTheTop :
    (about (.push2 1#32) 0 [7, -1]).tos = some 7#32 ∧
      (about (.push2 1#32) 0 [7, -1]).sp + 1 < (about (.push2 1#32) 0 [7, -1]).cap := by decide

/-- POP with an address and a value, in a memory of 3 cells. -/
def popAt (a : Int) : State := withMemory (about .pop 1 [a, 7]) [0, 0, 5]

theorem witness_PopStoresTheTopInMemory :
    (popAt 2).memory.wf = true ∧ (popAt 2).sos = some 2#32 ∧ (popAt 2).tos = some 7#32 ∧ (2#32 : Word) ≠ 1#32 ∧
      0 ≤ (2#32 : Word).toInt ∧ (2#32 : Word).toInt < (popAt 2).memory.size ∧ (popAt 0).sos = some 0#32 ∧
      (0#32 : Word) ≠ 1#32 := by decide
theorem witness_PopWritesTheOutputPort :
    (about .pop 1 [1, 7]).sos = some 1#32 ∧ (about .pop 1 [1, 7]).tos = some 7#32 := by decide
theorem witness_DupCopiesTheTop :
    (about .dup 0 [5, -1]).tos = some 5#32 ∧ (about .dup 0 [5, -1]).sp + 1 < (about .dup 0 [5, -1]).cap := by decide
theorem witness_DropRemovesTheTop :
    AboutToRun .drop (about .drop 0 [1]) ∧ 0 ≤ (about .drop 0 [1]).sp ∧
      (about .drop 0 [1]).sp < (about .drop 0 [1]).cap ∧ (about .drop (-1) [1]).sp = -1 :=
  ⟨about_runs _ _ _, by decide, by decide, by decide⟩
theorem witness_ConsecutivePushesFillTheStack :
    (about .halt (-1) [-1, -1]).sp = -1 ∧ [1#32, 2#32].length ≤ (about .halt (-1) [-1, -1]).cap := by decide
theorem witness_LoadReadsMemory :
    (withMemory (about .load 0 [1]) [11, 22]).tos = some 1#32 ∧ (1#32 : Word) ≠ 0#32 ∧
      (withMemory (about .load 0 [1]) [11, 22]).memory.read (1#32 : Word).toInt = some 22#32 := by decide
theorem witness_LoadReadsTheInputPort :
    (withQueue (about .load 0 [0]) [65, 0]).tos = some 0#32 ∧
      (withQueue (about .load 0 [0]) [65, 0]).inputQueue = [65#32, 0#32] := by decide
theorem witness_AddressOutOfRangeRaisesMemoryBounds_load :
    ((withMemory (about .load 0 [2]) [1, 1]).memory.size : Int) ≤ (2#32 : Word).toInt ∧
      (withMemory (about .load 0 [2]) [1, 1]).tos = some 2#32 ∧ (2#32 : Word) ≠ 0#32 := by decide
theorem witness_AddressOutOfRangeRaisesMemoryBounds_pop :
    (BitVec.ofInt 32 (-1)).toInt < 0 ∧ (popAt (-1)).sos = some (BitVec.ofInt 32 (-1)) ∧
      (popAt (-1)).tos = some 7#32 ∧ BitVec.ofInt 32 (-1) ≠ 1#32 := by decide

theorem witness_AluComputesExactlyThenWraps :
    (0#32 : Word).toInt = 0 ∧ (BitVec.ofInt 32 (-2147483648)).toInt ≠ 0 := by decide
theorem witness_RemainderHasTheSignOfTheDivisor : (BitVec.ofInt 32 (-2147483648)) ≠ 0#32 := by decide
theorem witness_IncAddsOneToTheTop :
    (about .inc 0 [2147483647]).tos = some 2147483647#32 := by decide
theorem witness_AddReplacesTwoCellsByTheirSum :
    (about .add 1 [3, 4]).sos = some 3#32 ∧ (about .add 1 [3, 4]).tos = some 4#32 := by decide
theorem witness_DivReplacesTwoCellsByTheFloorQuotient :
    (about .div 1 [7, 0]).sos = some 7#32 ∧ (about .div 1 [7, 0]).tos = some 0#32 ∧
      (about .div 1 [7, 1]).tos = some 1#32 := by decide
theorem witness_ModReplacesTwoCellsByTheFloorRemainder :
    (about .mod 1 [7, 0]).sos = some 7#32 ∧ (about .mod 1 [7, 0]).tos = some 0#32 ∧
      (about .mod 1 [7, 1]).tos = some 1#32 := by decide

theorem witness_ShallowStackRaisesStackBounds :
    (about .pop 0 [7]).SpLegal ∧ (about .pop 0 [7]).sp + 1 < minDepth .pop ∧ needsFreeCell .pop = false := by decide
theorem witness_FullStackRaisesStackBounds :
    (about .dup 0 [7]).SpLegal ∧ (about .dup 0 [7]).sp = ((about .dup 0 [7]).cap : Int) - 1 ∧
      needsFreeCell .dup = true := by decide
theorem witness_EmptyStackLeavesPush2AndDupHalfDone :
    (about .dup (-1) [7]).sp = -1 ∧ 0 < (about .dup (-1) [7]).cap := by decide
theorem witness_MinimumDepthSuffices :
    ∃ t, (about .dup 0 [7, -1]).runState = .running ∧ (about .dup 0 [7, -1]).SpLegal ∧
      (minDepth .dup : Int) ≤ (about .dup 0 [7, -1]).sp + 1 ∧
      (about .dup 0 [7, -1]).sp + 1 < (about .dup 0 [7, -1]).cap ∧ exec .dup (about .dup 0 [7, -1]) = .next t :=
  ⟨_, rfl, by decide, by decide, by decide, rfl⟩
theorem witness_HaltIsRaisedByHaltAlone :
    (about .halt (-1) []).runState = .running ∧
      ∃ t, step (about .halt (-1) []) = .next t ∧ t.runState = .stopped .halt := ⟨rfl, _, rfl, rfl⟩
theorem witness_InputExhaustedIsRaisedByLoadAlone :
    ∃ t, step (withQueue (about .load 0 [0]) []) = .next t ∧ t.runState = .stopped .inputExhausted := ⟨_, rfl, rfl⟩
theorem witness_DecodeFaultInCheckedCodeIsDeclarative :
    (about (.number 5#32) (-1) []).CodeChecked ∧
      ∃ t, step (about (.number 5#32) (-1) []) = .next t ∧ t.runState = .stopped .decodeFault := by
  refine ⟨?_, _, rfl, rfl⟩
  intro w hw
  obtain rfl : w = encode (.number 5#32) := List.mem_singleton.mp hw
  exact ⟨.number 5#32, by decide⟩
theorem witness_WrongOpcodeArmsAreUnreachable :
    (about .drop 0 [1]).runState = .running ∧ ∃ t, step (about .drop 0 [1]) = .next t := ⟨rfl, _, rfl⟩

theorem witness_FrameOfInstructionsWithoutMemory :
    Instr.add ≠ .pop ∧ Instr.add ≠ .load ∧ latchesPc .add = false ∧ ∃ t, exec .add (about .add 1 [3, 4]) = .next t :=
  ⟨by decide, by decide, rfl, _, rfl⟩
theorem witness_FrameOfLoad :
    ∃ t, exec .load (withMemory (about .load 0 [1]) [11, 22]) = .next t ∧
      (withMemory (about .load 0 [1]) [11, 22]).tos ≠ some 0#32 := ⟨_, rfl, by decide⟩
theorem witness_FrameOfPop :
    (∃ t, exec .pop (popAt 2) = .next t) ∧ (popAt 2).sos = some 2#32 ∧ (2 : Int) ≠ 1 ∧
      (∃ t, exec .pop (popAt 1) = .next t) ∧ (popAt 1).sos = some 1#32 ∧
      (∃ t, exec .pop (about .pop 0 [1]) = .next t) ∧ (about .pop 0 [1]).sos = none :=
  ⟨⟨_, rfl⟩, by decide, by decide, ⟨_, rfl⟩, by decide, ⟨_, rfl⟩, by decide⟩
theorem witness_CellsNotWrittenKeepTheirValues :
    (∃ t, exec .add (about .add 1 [3, 4]) = .next t) ∧ (1 : Int) ∉ writtenCells .add (about .add 1 [3, 4]) :=
  ⟨⟨_, rfl⟩, by decide⟩
theorem witness_StackPointerMovesByTheTable :
    ∃ t, (popAt 2).runState = .running ∧ exec .pop (popAt 2) = .next t ∧ t.runState = .running :=
  ⟨_, rfl, rfl, rfl⟩

theorem witness_CompletedCycleCostsItsTableTicks :
    AboutToRun (.push2 1#32) (about (.push2 1#32) 0 [7, -1]) ∧
      ∃ t, step (about (.push2 1#32) 0 [7, -1]) = .next t ∧ t.runState = .running := ⟨about_runs _ _ _, _, rfl, rfl⟩
theorem witness_CountersOnlyGrow : ∃ t, step (popAt 2) = .next t := ⟨_, rfl⟩
theorem witness_OutputChangesOnlyByPopToThePort :
    ∃ t, step (popAt 1) = .next t ∧ t.outputSeq ≠ (popAt 1).outputSeq := ⟨_, rfl, by decide⟩
theorem witness_InputChangesOnlyByLoadFromThePort :
    ∃ t, step (about .load 0 [0]) = .next t ∧ t.inputQueue ≠ (about .load 0 [0]).inputQueue := ⟨_, rfl, by decide⟩

/-- Two memories that differ in `memory[0]` only. -/
theorem witness_StaleStateIsUnobservable :
    (withMemory (about .pop 0 [7, 1]) [0, 0, 5]).memory.wf = true ∧
      (withMemory (about .pop 0 [7, 2]) [9, 0, 5]).memory.wf = true ∧
      SameObservable (withMemory (about .pop 0 [7, 1]) [0, 0, 5]) (withMemory (about .pop 0 [7, 2]) [9, 0, 5]) ∧
      (withMemory (about .pop 0 [7, 1]) [0, 0, 5]).runState = .running := by
  refine ⟨by decide, by decide, ⟨rfl, rfl, ?_, rfl, ?_⟩, rfl⟩
  · intro i hi
    have h0 : i ≤ 0 := hi
    unfold readStack
    split
    · rfl
    · obtain rfl : i = 0 := by omega
      rfl
  · intro a ha
    by_cases h : 0 ≤ a ∧ a < 3
    · obtain rfl | rfl : a = 1 ∨ a = 2 := by omega
      · decide
      · decide
    · have hb : ∀ m : Memory, m.size = 3 → m.read a = none := by
        intro m hm
        unfold Memory.read Memory.inBounds
        rw [if_neg]
        simp only [hm, Bool.and_eq_true, decide_eq_true_eq]
        exact h
      rw [hb _ rfl, hb _ rfl]

/-- `PUSH 0`, `LOAD` at `code[0]` and `code[1]` (V-M10). -/
def readsOne : State := { about .halt (-1) [-1] with code := inputSequence.map encode, inputQueue := [104#32, 0#32] }

theorem witness_PortSequencesTransferOneValue_input :
    AboutToRun (.push 0#32) readsOne ∧ -1 ≤ readsOne.sp ∧ readsOne.sp + 1 < readsOne.cap ∧
      readsOne.inputQueue = [104#32, 0#32] ∧ ∃ u, step readsOne = .next u ∧ AboutToRun .load u :=
  ⟨⟨rfl, by decide, by decide, rfl⟩, by decide, by decide, rfl, _, rfl, rfl, by decide, by decide, rfl⟩

/-- `PUSH2 1`, `POP` at `code[0]` and `code[1]` (V-M11). -/
def writesOne : State := { about .halt 0 [7, -1] with code := outputSequence.map encode }

theorem witness_PortSequencesTransferOneValue_output :
    AboutToRun (.push2 1#32) writesOne ∧ writesOne.tos = some 7#32 ∧ writesOne.sp + 1 < writesOne.cap ∧
      ∃ u, step writesOne = .next u ∧ AboutToRun .pop u :=
  ⟨⟨rfl, by decide, by decide, rfl⟩, by decide, by decide, _, rfl, rfl, by decide, by decide, rfl⟩

theorem witness_LoaderSplitsTheImage :
    ∃ s, loadImage [.cell 1, .cell 7, .record okRecord] = .ready s ∧ (0 : Nat) < 1 ∧ 0 < s.codeSize :=
  ⟨_, rfl, by decide, by decide⟩
theorem witness_ImageRoundTrip :
    [0#32, 7#32].length ≤ 2147483647 ∧ [Instr.push 3#32, .halt].length ≤ 2147483647 := by decide

end Sys2Proof.Tests
end

section
/-! The decoder of R55 on the fields of a word, as R8 numbers its bits. -/

namespace Sys2Proof.Encoding

open Sys2Proof

/-! ## The two fields of a word -/

theorem opField_toNat (w : CodeWord) : (opField w).toNat = w.toNat / 4294967296 := by
  have hw : w.toNat < 2 ^ 40 := w.isLt
  simp only [opField, BitVec.extractLsb'_toNat, Nat.shiftRight_eq_div_pow]
  omega

theorem argField_toNat (w : CodeWord) : (argField w).toNat = w.toNat % 4294967296 := by
  simp [argField]

/-- `a = sext_32(bits[31:0])` determines the field (R50). -/
theorem argField_eq_of_toInt {w : CodeWord} {u : Nat} {a : Word} (hu : u = w.toNat % 4294967296)
    (ha : a.toInt = if u < 2147483648 then (u : Int) else (u : Int) - 4294967296) : argField w = a := by
  have hfield : (argField w).toNat = u := (argField_toNat w).trans hu.symm
  apply BitVec.eq_of_toInt_eq
  rw [ha, BitVec.toInt_eq_toNat_cond, hfield]
  split <;> split <;> omega

/-! ## The rows of the decoder -/

theorem decodeNoArg_of_eq_zero {a : Word} (i : Instr) (h : a.toNat = 0) : decodeNoArg a i = .ok i :=
  if_pos (BitVec.eq_of_toNat_eq h)

theorem decodeNoArg_of_ne_zero {a : Word} (i : Instr) (h : a.toNat ≠ 0) : decodeNoArg a i = .error .arity :=
  if_neg fun ha => h (congrArg BitVec.toNat ha)

theorem decodeFields_of_unassigned {op : BitVec 8} (a : Word) (h : 16 ≤ op.toNat) :
    decodeFields op a = .error .unrecognised := by
  unfold decodeFields
  split
  case h_17 => rfl
  all_goals omega

/-- The opcodes that take no argument are `HALT` and `POP` to `MOD` (R52). -/
theorem decodeFields_of_stray_arg {op : BitVec 8} {a : Word} (hop : op.toNat = 0 ∨ (5 ≤ op.toNat ∧ op.toNat ≤ 12))
    (ha : a.toNat ≠ 0) : decodeFields op a = .error .arity := by
  unfold decodeFields
  split
  case h_1 | h_6 | h_7 | h_8 | h_9 | h_10 | h_11 | h_12 | h_13 => exact decodeNoArg_of_ne_zero _ ha
  case h_17 =>
    simp only [imp_false] at *
    omega
  all_goals omega

theorem decode_of_opField_toNat_eq {w : CodeWord} {op : BitVec 8} (h : (opField w).toNat = op.toNat) :
    decode w = decodeFields op (argField w) := by
  rw [decode, BitVec.eq_of_toNat_eq h]

end Sys2Proof.Encoding

open Sys2Proof Sys2Proof.Encoding

/-- Settles O3: `op` and `a` are the two fields the decoder reads, so each clause is the row of the decoder at that
opcode, with the check of the `arg` field where no argument is taken. -/
theorem decoderReadsOpAndArgFields : Obligations.DecoderReadsOpAndArgFields := by
  intro w op u a hop hu ha
  obtain rfl : argField w = a := argField_eq_of_toInt hu ha
  have hargNat : (argField w).toNat = u := (argField_toNat w).trans hu.symm
  have hopNat : (opField w).toNat = op := (opField_toNat w).trans hop.symm
  have row (n : BitVec 8) (hn : op = n.toNat) : decode w = decodeFields n (argField w) :=
    decode_of_opField_toNat_eq (hopNat.trans hn)
  have noArgRow (n : BitVec 8) (i : Instr) (hi : ∀ b, decodeFields n b = decodeNoArg b i)
      (hn : op = n.toNat) (hzero : u = 0) : decode w = .ok i :=
    (row n hn).trans ((hi _).trans (decodeNoArg_of_eq_zero i (hargNat.trans hzero)))
  exact ⟨row 1#8, row 2#8, row 3#8, row 4#8,
    fun hno hne => decodeFields_of_stray_arg (hopNat ▸ hno) (hargNat ▸ hne),
    noArgRow 0#8 .halt fun _ => rfl, noArgRow 5#8 .pop fun _ => rfl, noArgRow 6#8 .dup fun _ => rfl,
    noArgRow 7#8 .drop fun _ => rfl, noArgRow 8#8 .load fun _ => rfl, noArgRow 9#8 .inc fun _ => rfl,
    noArgRow 10#8 .add fun _ => rfl, noArgRow 11#8 .div fun _ => rfl, noArgRow 12#8 .mod fun _ => rfl,
    row 13#8, row 14#8, row 15#8, fun h => decodeFields_of_unassigned _ (hopNat ▸ h)⟩

end

section
/-! The ALU of R76: the exact result is the integer sum, or the floor quotient and remainder of R9 as rationals give
them, and `wrap32` brings it into the signed range. -/

namespace Sys2Proof.Machine

/-- The exact integer wrapped into `[-2^31, 2^31 - 1]` (R9). -/
theorem wrap32_toInt (v : Int) : (wrap32 v).toInt = (v + 2147483648) % 4294967296 - 2147483648 := by
  rw [wrap32, BitVec.toInt_ofInt, Int.bmod_def]
  split <;> omega

/-- `fdiv` is the floor of the rational quotient (R9): a negative divisor moves its sign to the dividend. -/
theorem floorDiv_eq_floor (a b : Int) : floorDiv a b = ⌊(a : ℚ) / (b : ℚ)⌋ := by
  have natDivisor (a : Int) (d : Nat) : a.fdiv d = ⌊(a : ℚ) / ((d : Int) : ℚ)⌋ := by
    rw [Int.fdiv_eq_ediv_of_nonneg a d.cast_nonneg, Int.cast_natCast, Rat.floor_intCast_div_natCast]
  unfold floorDiv
  obtain ⟨d, rfl | rfl⟩ := b.eq_nat_or_neg
  · exact natDivisor a d
  · calc a.fdiv (-d) = (-a).fdiv d := by rw [← Int.neg_fdiv_neg, neg_neg]
      _ = ⌊((-a : Int) : ℚ) / ((d : Int) : ℚ)⌋ := natDivisor (-a) d
      _ = ⌊(a : ℚ) / ((-d : Int) : ℚ)⌋ := by rw [Int.cast_neg, Int.cast_neg, neg_div, div_neg]

theorem alu_div_zero (right : Word) : alu .div 0#32 right = Config.divByZeroSentinel := rfl

theorem alu_mod_zero (right : Word) : alu .mod 0#32 right = Config.divByZeroSentinel := rfl

theorem alu_div_of_ne_zero {left : Word} (right : Word) (h : left ≠ 0#32) :
    alu .div left right = wrap32 ⌊(right.toInt : ℚ) / (left.toInt : ℚ)⌋ := by
  rw [← floorDiv_eq_floor]
  exact if_neg h

theorem alu_mod_of_ne_zero {left : Word} (right : Word) (h : left ≠ 0#32) :
    alu .mod left right = wrap32 (right.toInt - left.toInt * ⌊(right.toInt : ℚ) / (left.toInt : ℚ)⌋) := by
  rw [← floorDiv_eq_floor]
  exact if_neg h

end Sys2Proof.Machine

open Sys2Proof Sys2Proof.Machine

/-- Settles O32: each result is `wrap32` of the exact one, or the sentinel where the divisor's signed value, hence the
divisor itself, is 0. -/
theorem aluComputesExactlyThenWraps : Obligations.AluComputesExactlyThenWraps := by
  intro left right l r
  refine ⟨wrap32_toInt (r + l), fun hl => ?zeroDivisor, fun hl => ?nonzeroDivisor⟩
  case zeroDivisor =>
    obtain rfl : left = 0#32 := BitVec.eq_of_toInt_eq hl
    rw [alu_div_zero, alu_mod_zero]
    decide
  case nonzeroDivisor =>
    have hleft : left ≠ 0#32 := fun h => hl (congrArg BitVec.toInt h)
    rw [alu_div_of_ne_zero right hleft, alu_mod_of_ne_zero right hleft]
    exact ⟨wrap32_toInt _, wrap32_toInt _⟩

end

section
/-! The words of the encoder as numbers (R49), and the codec's round trip on them (R56). -/

namespace Sys2Proof.Encoding

open Sys2Proof

theorem encode_toNat (i : Instr) :
    (encode i).toNat = (opNumberOf i).toNat * 4294967296 + (argOf i).toNat := by
  have harg : (argOf i).toNat < 2 ^ 32 := (argOf i).isLt
  rw [encode, BitVec.toNat_append, ← Nat.shiftLeft_add_eq_or_of_lt harg, Nat.shiftLeft_eq]

theorem decode_encode (i : Instr) : decode (encode i) = .ok i := by
  obtain ⟨hop, harg⟩ : opField (encode i) = opNumberOf i ∧ argField (encode i) = argOf i :=
    Laws.fields_append _ _
  rw [decode, hop, harg]
  cases i <;> rfl

end Sys2Proof.Encoding

end

section
/-! What one step is, by what its fetch finds (R63 to R68, R126). -/

namespace Sys2Proof.Machine

open Sys2Proof.Encoding

theorem step_eq_cycle {s : State} (hrun : s.runState = .running) (htick : s.tick < s.tickLimit) :
    step s = cycle exec s := by
  simp [step, runController, hrun, ceilingReached, htick]

theorem fetchWord_eq_none {s : State} (h : s.pc.toInt < 0 ∨ s.codeSize ≤ s.pc.toInt) : fetchWord s = none := by
  rw [fetchWord]
  split
  · rfl
  · have hsize : s.code.length ≤ s.pc.toInt.toNat := by
      unfold State.codeSize at h
      omega
    exact List.getElem?_eq_none hsize

theorem fetch_eq_goes {s : State} {w : CodeWord} (h : fetchWord s = some w) : fetch s = .goes (s.fetched w) := by
  rw [fetch, h]
  rfl

theorem fetch_eq_raise {s : State} (h : fetchWord s = none) : fetch s = raise (.runtimeFault .pcBounds) s := by
  rw [fetch, h]

/-- A fetch that finds no word ends the cycle with nothing else changed (R64). -/
theorem step_of_fetchWord_eq_none {s : State} (hrun : s.runState = .running) (htick : s.tick < s.tickLimit)
    (h : fetchWord s = none) : step s = .next { s with runState := .stopped (.runtimeFault .pcBounds) } := by
  rw [step_eq_cycle hrun htick, cycle, fetch_eq_raise h]
  rfl

theorem AboutToRun.running {i : Instr} {s : State} (h : AboutToRun i s) : s.runState = .running := h.1

theorem AboutToRun.below_ceiling {i : Instr} {s : State} (h : AboutToRun i s) : s.tick < s.tickLimit := h.2.1

/-- The step of an instruction about to run: its dispatch arm on the fetched state, then the end of the cycle
(R67, R68). -/
theorem AboutToRun.step_eq {i : Instr} {s t : State} (h : AboutToRun i s)
    (hexec : exec i (s.fetched (encode i)) = .next t) : step s = .next (finishCycle t) := by
  rw [step_eq_cycle h.running h.below_ceiling, cycle, fetch_eq_goes h.fetchWord]
  simp only [dispatchAndFinish, dispatchIr, State.fetched_ir, decode_encode, hexec]

theorem exec_jump (arg : Word) (s : State) : exec (.jump arg) s = .next { s with pc := arg } := rfl

/-- The whole cycle of a JUMP: the fetch tick, the latch of R84 and the trailing tick with the count. -/
theorem step_jump {arg : Word} {s : State} (h : AboutToRun (.jump arg) s) :
    step s = .next
      { s with ir := encode (.jump arg), pc := arg, tick := s.tick + 2, instrCount := s.instrCount + 1 } := by
  have hrun : ({ s.fetched (encode (.jump arg)) with pc := arg } : State).runState = .running := h.running
  rw [h.step_eq (exec_jump arg _), finishCycle_running hrun]
  rfl

end Sys2Proof.Machine

open Sys2Proof Sys2Proof.Machine Sys2Proof.Encoding

/-- Settles O19: a JUMP completes and leaves the core running with `pc` at its argument, so a target outside `code`
is a `pc` at which the next fetch finds no word. -/
theorem jumpLatchesItsTarget : Obligations.JumpLatchesItsTarget := by
  refine ⟨fun arg => encode_toNat (.jump arg), exec_jump, ?_⟩
  rintro arg s t hs rfl
  refine ⟨step_jump hs, fun houtside htick => ?_⟩
  exact step_of_fetchWord_eq_none hs.running htick (fetchWord_eq_none houtside)

end

section
/-! `DROP` (R90): one move of `sp`, which is refused exactly on an empty stack. -/

namespace Sys2Proof.Machine

open Sys2Proof.Encoding

theorem exec_drop_eq_moveSp (s : State) : exec .drop s = (moveSp (-1) s).outcome := rfl

theorem exec_drop {s : State} (h0 : 0 ≤ s.sp) (h1 : s.sp < s.cap) :
    exec .drop s = .next { s with sp := s.sp - 1 } := by
  rw [exec_drop_eq_moveSp]
  obtain ⟨_, _, hmove⟩ | ⟨hout, _⟩ := moveSp_cases (-1) s
  · rw [hmove, Flow.outcome_goes, ← Int.sub_eq_add_neg]
  · omega

theorem exec_drop_of_empty {s : State} (h : s.sp = -1) :
    exec .drop s = .next { s with runState := .stopped (.runtimeFault .stackBounds) } := by
  rw [exec_drop_eq_moveSp]
  obtain ⟨hin, _, _⟩ | ⟨_, hraise⟩ := moveSp_cases (-1) s
  · omega
  · rw [hraise, Flow.outcome_raise]

/-- An instruction whose arm leaves the core running adds the trailing tick and the count to what the arm did
(R68). -/
theorem AboutToRun.step_of_exec_running {i : Instr} {s t : State} (h : AboutToRun i s)
    (hexec : exec i (s.fetched (encode i)) = .next t) (hrun : t.runState = .running) :
    step s = .next { t with tick := t.tick + 1, instrCount := t.instrCount + 1 } := by
  rw [h.step_eq hexec, finishCycle_running hrun]

end Sys2Proof.Machine

open Sys2Proof Sys2Proof.Machine Sys2Proof.Encoding

/-- Settles O27: `sp` moves down by 1 unless it is -1 already, and the fetch, which moves neither `sp` nor the
capacity, and the end of the cycle add one tick each. -/
theorem dropRemovesTheTop : Obligations.DropRemovesTheTop := by
  refine ⟨rfl, fun _ => exec_drop, fun _ => exec_drop_of_empty, fun s hs h0 h1 => ?_⟩
  exact hs.step_of_exec_running (exec_drop (s := s.fetched (encode .drop)) h0 h1) hs.running

end

section
/-! What an instruction can do, said once, on every state, legal or not: `Completes` lists the ways its dispatch runs
to its end, `Raises` the ways it raises. The next section ties both to `exec`: `exec_eq_next_iff`. -/

namespace Sys2Proof.Machine

/-! ## The states on the way -/

/-- The state a `raise` leaves (R100, R110). -/
@[simps] def State.stop (s : State) (c : StopCause) : State := { s with runState := .stopped c }

/-- `sp` raised by 1 and the inner tick charged, as `PUSH`, `PUSH2` and `DUP` begin (R86, R87, R89). -/
@[simps] def State.grown (s : State) : State := { s with sp := s.sp + 1, tick := s.tick + 1 }

/-- The address latched and the inner tick charged, as `POP` and `LOAD` begin (R88, R91). -/
@[simps] def State.latched (s : State) (a : Word) : State := { s with dataAddress := a, tick := s.tick + 1 }

/-- The trailing tick and the count (R68). -/
@[simps] def State.counted (s : State) : State := { s with tick := s.tick + 1, instrCount := s.instrCount + 1 }

@[simp] theorem State.grown_cap (s : State) : s.grown.cap = s.cap := rfl

/-! ## The two relations -/

/-- The operation of an ALU instruction. -/
def aluOpOf : Instr → Option AluOp
  | .add => some .add
  | .div => some .div
  | .mod => some .mod
  | _ => none

/-- The first stack check of the instruction fails (R70, R72). -/
def Blocked (i : Instr) (s : State) : Prop :=
  match i with
  | .push _ | .push2 _ | .dup => s.sp < -2 ∨ s.cap ≤ s.sp + 1
  | .drop => s.sp < 0 ∨ s.cap < s.sp
  | .pop => s.sos = none
  | .jz _ | .load | .inc => s.tos = none
  | .add | .div | .mod => s.sos = none ∨ s.tos = none
  | .halt | .jump _ | .number _ | .string _ | .buffer _ => False

/-- The access that follows a move of `sp` upwards fails: there is no old top to copy, or, for `PUSH`, `sp` came from
below its legal range. -/
def LacksCell (i : Instr) (s : State) : Prop :=
  match i with
  | .push _ => s.sp = -2
  | .push2 _ | .dup => s.tos = none
  | _ => False

/-- The dispatch of an instruction runs to its end: from the second argument it leaves the third (R83 to R97). -/
inductive Completes : Instr → State → State → Prop
  | jump (arg : Word) (s : State) : Completes (.jump arg) s { s with pc := arg }
  | jzTaken (arg : Word) {s : State} (hzero : s.tos = some 0#32) : Completes (.jz arg) s { s with pc := arg }
  | jzPassed (arg : Word) {s : State} {v : Word} (htop : s.tos = some v) (hne : v ≠ 0#32) : Completes (.jz arg) s s
  | push (arg : Word) {s : State} (hlow : -1 ≤ s.sp) (hroom : s.sp + 1 < s.cap) :
      Completes (.push arg) s (s.grown.setStack (s.sp + 1) arg)
  | push2 (arg : Word) {s : State} {v : Word} (htop : s.tos = some v) (hroom : s.sp + 1 < s.cap) :
      Completes (.push2 arg) s
        (({ s.grown with tick := s.tick + 2 }.setStack (s.sp + 1) v).setStack s.sp arg)
  | dup {s : State} {v : Word} (htop : s.tos = some v) (hroom : s.sp + 1 < s.cap) :
      Completes .dup s (s.grown.setStack (s.sp + 1) v)
  | drop {s : State} (hlow : 0 ≤ s.sp) (hhigh : s.sp ≤ s.cap) : Completes .drop s { s with sp := s.sp - 1 }
  | popToPort {s : State} {v : Word} (haddr : s.sos = some 1#32) (htop : s.tos = some v) :
      Completes .pop s { s.latched 1#32 with outputSeq := s.outputSeq ++ [v], sp := s.sp - 2 }
  | popToMemory {s : State} {a v : Word} (haddr : s.sos = some a) (htop : s.tos = some v) (hport : a ≠ 1#32)
      (hin : s.memory.inBounds a.toInt = true) :
      Completes .pop s { s.latched a with memory := s.memory.set a.toInt v, sp := s.sp - 2 }
  | loadFromPort {s : State} {c : Word} {rest : List Word} (haddr : s.tos = some 0#32)
      (hqueue : s.inputQueue = c :: rest) :
      Completes .load s ({ s.latched 0#32 with inputQueue := rest }.setStack s.sp c)
  | loadFromMemory {s : State} {a v : Word} (haddr : s.tos = some a) (hport : a ≠ 0#32)
      (hcell : s.memory.read a.toInt = some v) : Completes .load s ((s.latched a).setStack s.sp v)
  | inc {s : State} {v : Word} (htop : s.tos = some v) :
      Completes .inc s (s.setStack s.sp (wrap32 (v.toInt + 1)))
  | alu {i : Instr} {op : AluOp} {s : State} {a b : Word} (hop : aluOpOf i = some op) (hsecond : s.sos = some a)
      (htop : s.tos = some b) : Completes i s { s.setStack (s.sp - 1) (alu op b a) with sp := s.sp - 1 }

/-- The dispatch of an instruction on a state raises a cause: the last argument is the state the raise finds, with the
effects so far (R100, R110). -/
inductive Raises : Instr → State → StopCause → State → Prop
  | halt (s : State) : Raises .halt s .halt s
  | declarative {i : Instr} (s : State) (hdecl : isDeclarative i = true) : Raises i s .decodeFault s
  | blocked {i : Instr} {s : State} (hblocked : Blocked i s) : Raises i s (.runtimeFault .stackBounds) s
  | halfDone {i : Instr} {s : State} (hlow : -2 ≤ s.sp) (hroom : s.sp + 1 < s.cap) (hlacks : LacksCell i s) :
      Raises i s (.runtimeFault .stackBounds) s.grown
  | popNoTop {s : State} {a : Word} (haddr : s.sos = some a) (htop : s.tos = none) :
      Raises .pop s (.runtimeFault .stackBounds) (s.latched a)
  | popOutOfRange {s : State} {a v : Word} (haddr : s.sos = some a) (htop : s.tos = some v) (hport : a ≠ 1#32)
      (hout : s.memory.inBounds a.toInt = false) : Raises .pop s (.runtimeFault .memoryBounds) (s.latched a)
  | loadOutOfRange {s : State} {a : Word} (haddr : s.tos = some a) (hport : a ≠ 0#32)
      (hout : s.memory.read a.toInt = none) : Raises .load s (.runtimeFault .memoryBounds) (s.latched a)
  | inputExhausted {s : State} (haddr : s.tos = some 0#32) (hqueue : s.inputQueue = []) :
      Raises .load s .inputExhausted (s.latched 0#32)

/-! ## The signals, by what they find -/

theorem withStackCell_of_eq_some {i : Int} {s : State} {v : Word} (h : readStack s i = some v) (use : Word → Flow) :
    withStackCell i s use = use v := by
  simp [withStackCell, h]

theorem withStackCell_of_eq_none {i : Int} {s : State} (h : readStack s i = none) (use : Word → Flow) :
    withStackCell i s use = raise (.runtimeFault .stackBounds) s := by
  simp [withStackCell, h]

theorem writeStackCell_of_cell {i : Int} {s : State} (h0 : 0 ≤ i) (h1 : i < s.cap) (v : Word) :
    writeStackCell i v s = .goes (s.setStack i v) :=
  if_pos ⟨h0, h1⟩

theorem writeStackCell_of_neg {i : Int} (h : i < 0) (v : Word) (s : State) :
    writeStackCell i v s = raise (.runtimeFault .stackBounds) s :=
  if_neg fun hi => absurd hi.1 (Int.not_le.mpr h)

theorem moveSp_of_legal {d : Int} {s : State} (h0 : -1 ≤ s.sp + d) (h1 : s.sp + d < s.cap) :
    moveSp d s = .goes { s with sp := s.sp + d } :=
  if_neg (by omega)

theorem moveSp_of_illegal {d : Int} {s : State} (h : s.sp + d < -1 ∨ s.cap ≤ s.sp + d) :
    moveSp d s = raise (.runtimeFault .stackBounds) s :=
  if_pos (by omega)

/-- `PUSH`, `PUSH2` and `DUP` begin alike. -/
theorem moveSp_one_andThen_chargeTick {s : State} (h0 : -2 ≤ s.sp) (h1 : s.sp + 1 < s.cap) :
    (moveSp 1 s).andThen chargeTick = .goes s.grown := by
  rw [moveSp_of_legal (by omega) h1]
  rfl

end Sys2Proof.Machine
end

section
/-! The dispatch arms do what the two relations say, and on every state one of the two holds. -/

namespace Sys2Proof.Machine

/-! ## Stores and loads, by what they find -/

theorem storeTop_to_port {s : State} {v : Word} (hport : s.dataAddress = 1#32) (htop : s.tos = some v) :
    storeTop s = .goes { s with outputSeq := s.outputSeq ++ [v] } :=
  (if_pos hport).trans (withStackCell_of_eq_some htop _)

theorem storeTop_to_memory {s : State} {v : Word} (hport : s.dataAddress ≠ 1#32) (htop : s.tos = some v)
    (hin : s.memory.inBounds s.dataAddress.toInt = true) :
    storeTop s = .goes { s with memory := s.memory.set s.dataAddress.toInt v } :=
  (if_neg hport).trans ((withStackCell_of_eq_some htop _).trans (by simp [writeMemoryCell, Memory.write, hin]))

theorem storeTop_out_of_range {s : State} {v : Word} (hport : s.dataAddress ≠ 1#32) (htop : s.tos = some v)
    (hout : s.memory.inBounds s.dataAddress.toInt = false) :
    storeTop s = raise (.runtimeFault .memoryBounds) s :=
  (if_neg hport).trans ((withStackCell_of_eq_some htop _).trans (by simp [writeMemoryCell, Memory.write, hout]))

theorem storeTop_without_top {s : State} (htop : s.tos = none) :
    storeTop s = raise (.runtimeFault .stackBounds) s := by
  unfold storeTop outputSignal
  split <;> exact withStackCell_of_eq_none htop _

theorem inputSignal_of_cons {s : State} {c : Word} {rest : List Word} (h0 : 0 ≤ s.sp) (h1 : s.sp < s.cap)
    (hqueue : s.inputQueue = c :: rest) :
    inputSignal s = .goes ({ s with inputQueue := rest }.setStack s.sp c) := by
  rw [inputSignal, hqueue]
  exact writeStackCell_of_cell (s := { s with inputQueue := rest }) h0 h1 c

theorem inputSignal_of_nil {s : State} (hqueue : s.inputQueue = []) : inputSignal s = raise .inputExhausted s := by
  rw [inputSignal, hqueue]

theorem loadToTop_from_port {s : State} (hport : s.dataAddress = 0#32) : loadToTop s = inputSignal s :=
  if_pos hport

theorem loadToTop_from_memory {s : State} {v : Word} (h0 : 0 ≤ s.sp) (h1 : s.sp < s.cap)
    (hport : s.dataAddress ≠ 0#32) (hcell : s.memory.read s.dataAddress.toInt = some v) :
    loadToTop s = .goes (s.setStack s.sp v) := by
  refine (if_neg hport).trans ?_
  rw [withMemoryCell, hcell]
  exact writeStackCell_of_cell h0 h1 v

theorem loadToTop_out_of_range {s : State} (hport : s.dataAddress ≠ 0#32)
    (hout : s.memory.read s.dataAddress.toInt = none) :
    loadToTop s = raise (.runtimeFault .memoryBounds) s := by
  refine (if_neg hport).trans ?_
  rw [withMemoryCell, hout]

theorem copySecondToTop_grown {s : State} {v : Word} (htop : s.tos = some v) (hroom : s.sp + 1 < s.cap) :
    copySecondToTop s.grown = .goes (s.grown.setStack (s.sp + 1) v) := by
  have hold : readStack s.grown (s.sp + 1 - 1) = some v := by rwa [Int.add_sub_cancel]
  have hbounds := readStack_bounds htop
  refine (withStackCell_of_eq_some hold _).trans ?_
  exact writeStackCell_of_cell (s := s.grown) (show 0 ≤ s.sp + 1 by omega) hroom v

theorem copySecondToTop_grown_of_missing {s : State} (htop : s.tos = none) :
    copySecondToTop s.grown = raise (.runtimeFault .stackBounds) s.grown := by
  have hold : readStack s.grown (s.sp + 1 - 1) = none := by rwa [Int.add_sub_cancel]
  exact withStackCell_of_eq_none hold _

theorem aluToSecond_of_missing {op : AluOp} {s : State} (h : s.sos = none ∨ s.tos = none) :
    aluToSecond op s = raise (.runtimeFault .stackBounds) s := by
  obtain ⟨a, b, ha, hb, _⟩ | ⟨_, hraise⟩ := aluToSecond_cases op s
  · simp [ha, hb] at h
  · exact hraise

/-! ## The arms as sequences -/

theorem exec_pop_eq (s : State) : exec .pop s =
    ((((latchDataAddress .pop s).andThen chargeTick).andThen storeTop).andThen (moveSp (-2))).outcome := rfl

theorem exec_load_eq (s : State) : exec .load s =
    (((latchDataAddress .load s).andThen chargeTick).andThen loadToTop).outcome := rfl

theorem exec_push_eq (arg : Word) (s : State) : exec (.push arg) s =
    (((moveSp 1 s).andThen chargeTick).andThen fun u => writeStackCell u.sp arg u).outcome := rfl

theorem exec_push2_eq (arg : Word) (s : State) : exec (.push2 arg) s =
    (((((moveSp 1 s).andThen chargeTick).andThen copySecondToTop).andThen chargeTick).andThen
      fun u => writeStackCell (u.sp - 1) arg u).outcome := rfl

theorem exec_dup_eq (s : State) :
    exec .dup s = (((moveSp 1 s).andThen chargeTick).andThen copySecondToTop).outcome := rfl

/-- `POP` once its address is latched. -/
theorem exec_pop_of_address {s : State} {a : Word} (haddr : s.sos = some a) :
    exec .pop s = ((storeTop (s.latched a)).andThen (moveSp (-2))).outcome := by
  rw [exec_pop_eq, latchDataAddress, withStackCell_of_eq_some haddr]
  rfl

/-- `LOAD` once its address is latched. -/
theorem exec_load_of_address {s : State} {a : Word} (haddr : s.tos = some a) :
    exec .load s = (loadToTop (s.latched a)).outcome := by
  rw [exec_load_eq, latchDataAddress, withStackCell_of_eq_some haddr]
  rfl

/-- `JZ` once it has read the top. -/
theorem exec_jz_of_top {arg v : Word} {s : State} (htop : s.tos = some v) :
    exec (.jz arg) s = .next (if v = 0#32 then { s with pc := arg } else s) := by
  show (withStackCell _ _ _).outcome = _
  rw [withStackCell_of_eq_some htop]
  by_cases hv : v = 0#32 <;> simp [hv, latchPc]

theorem exec_inc_eq (s : State) : exec .inc s =
    (withStackCell s.sp s fun v => writeStackCell s.sp (wrap32 (v.toInt + 1)) s).outcome := rfl

theorem exec_alu_eq {i : Instr} {op : AluOp} (h : aluOpOf i = some op) (s : State) :
    exec i s = ((aluToSecond op s).andThen (moveSp (-1))).outcome := by
  cases i <;> cases h <;> rfl

/-! ## Completed arms -/

theorem exec_push2_of_room {arg v : Word} {s : State} (htop : s.tos = some v) (hroom : s.sp + 1 < s.cap) :
    exec (.push2 arg) s =
      .next (({ s.grown with tick := s.tick + 2 }.setStack (s.sp + 1) v).setStack s.sp arg) := by
  have hbounds := readStack_bounds htop
  rw [exec_push2_eq, moveSp_one_andThen_chargeTick (by omega) hroom, Flow.andThen_goes,
    copySecondToTop_grown htop hroom]
  show (writeStackCell (s.sp + 1 - 1) arg ({ s.grown with tick := s.tick + 2 }.setStack (s.sp + 1) v)).outcome = _
  rw [Int.add_sub_cancel, writeStackCell_of_cell hbounds.1 (by rw [State.setStack_cap]; exact hbounds.2),
    Flow.outcome_goes]

theorem Completes.exec_eq {i : Instr} {s t : State} (h : Completes i s t) : exec i s = .next t := by
  cases h with
  | jump arg => exact exec_jump arg s
  | jzTaken arg hzero => rw [exec_jz_of_top hzero, if_pos rfl]
  | jzPassed arg htop hne =>
    rw [exec_jz_of_top htop, if_neg hne]
  | push arg hlow hroom =>
    rw [exec_push_eq, moveSp_one_andThen_chargeTick (by omega) hroom]
    exact congrArg Flow.outcome (writeStackCell_of_cell (s := s.grown) (show 0 ≤ s.sp + 1 by omega) hroom arg)
  | push2 arg htop hroom => exact exec_push2_of_room htop hroom
  | dup htop hroom =>
    have hbounds := readStack_bounds htop
    rw [exec_dup_eq, moveSp_one_andThen_chargeTick (by omega) hroom, Flow.andThen_goes,
      copySecondToTop_grown htop hroom, Flow.outcome_goes]
  | drop hlow hhigh =>
    rw [exec_drop_eq_moveSp, moveSp_of_legal (by omega) (by omega)]
    rfl
  | popToPort haddr htop =>
    have hbounds := readStack_bounds haddr
    rw [exec_pop_of_address haddr, storeTop_to_port (State.latched_dataAddress ..) htop]
    exact congrArg Flow.outcome (moveSp_of_legal (by simp; omega) (by simp [State.cap] at hbounds ⊢; omega))
  | popToMemory haddr htop hport hin =>
    have hbounds := readStack_bounds haddr
    rw [exec_pop_of_address haddr, storeTop_to_memory (s := s.latched _) hport htop hin]
    exact congrArg Flow.outcome (moveSp_of_legal (by simp; omega) (by simp [State.cap] at hbounds ⊢; omega))
  | loadFromPort haddr hqueue =>
    have hbounds := readStack_bounds haddr
    rw [exec_load_of_address haddr, loadToTop_from_port (State.latched_dataAddress ..)]
    exact congrArg Flow.outcome (inputSignal_of_cons (s := s.latched _) hbounds.1 hbounds.2 hqueue)
  | loadFromMemory haddr hport hcell =>
    have hbounds := readStack_bounds haddr
    rw [exec_load_of_address haddr]
    exact congrArg Flow.outcome (loadToTop_from_memory (s := s.latched _) hbounds.1 hbounds.2 hport hcell)
  | inc htop =>
    have hbounds := readStack_bounds htop
    rw [exec_inc_eq, withStackCell_of_eq_some htop, writeStackCell_of_cell hbounds.1 hbounds.2, Flow.outcome_goes]
  | alu hop hsecond htop =>
    have hbounds := readStack_bounds hsecond
    rw [exec_alu_eq hop, aluToSecond, withStackCell_of_eq_some htop, withStackCell_of_eq_some hsecond,
      writeStackCell_of_cell hbounds.1 hbounds.2]
    exact congrArg Flow.outcome (moveSp_of_legal (by simp; omega) (by simp; omega))

/-! ## Arms that raise -/

theorem Blocked.exec_eq {i : Instr} {s : State} (h : Blocked i s) :
    exec i s = .next (s.stop (.runtimeFault .stackBounds)) := by
  unfold Blocked at h
  cases i with
  | halt | jump | number | string | buffer => exact h.elim
  | push => rw [exec_push_eq, moveSp_of_illegal (by omega)]; rfl
  | push2 => rw [exec_push2_eq, moveSp_of_illegal (by omega)]; rfl
  | dup => rw [exec_dup_eq, moveSp_of_illegal (by omega)]; rfl
  | drop => rw [exec_drop_eq_moveSp, moveSp_of_illegal (by omega)]; rfl
  | jz | inc => exact congrArg Flow.outcome (withStackCell_of_eq_none h _)
  | pop => rw [exec_pop_eq, latchDataAddress, withStackCell_of_eq_none h]; rfl
  | load => rw [exec_load_eq, latchDataAddress, withStackCell_of_eq_none h]; rfl
  | add | div | mod => rw [exec_alu_eq rfl, aluToSecond_of_missing h]; rfl

theorem LacksCell.exec_eq {i : Instr} {s : State} (hlow : -2 ≤ s.sp) (hroom : s.sp + 1 < s.cap)
    (h : LacksCell i s) : exec i s = .next (s.grown.stop (.runtimeFault .stackBounds)) := by
  have hmove := moveSp_one_andThen_chargeTick hlow hroom
  unfold LacksCell at h
  cases i with
  | push arg =>
    rw [exec_push_eq, hmove]
    exact congrArg Flow.outcome (writeStackCell_of_neg (show s.sp + 1 < 0 by omega) arg s.grown)
  | push2 => rw [exec_push2_eq, hmove, Flow.andThen_goes, copySecondToTop_grown_of_missing h]; rfl
  | dup => rw [exec_dup_eq, hmove, Flow.andThen_goes, copySecondToTop_grown_of_missing h]; rfl
  | _ => exact h.elim

theorem Raises.exec_eq {i : Instr} {s u : State} {c : StopCause} (h : Raises i s c u) :
    exec i s = .next (u.stop c) := by
  cases h with
  | halt => rfl
  | declarative s hdecl =>
    cases i with
    | number | string | buffer => rfl
    | _ => cases hdecl
  | blocked hblocked => exact hblocked.exec_eq
  | halfDone hlow hroom hlacks => exact hlacks.exec_eq hlow hroom
  | popNoTop haddr htop =>
    rw [exec_pop_of_address haddr, storeTop_without_top (s := s.latched _) htop]
    rfl
  | popOutOfRange haddr htop hport hout =>
    rw [exec_pop_of_address haddr, storeTop_out_of_range (s := s.latched _) hport htop hout]
    rfl
  | loadOutOfRange haddr hport hout =>
    rw [exec_load_of_address haddr, loadToTop_out_of_range (s := s.latched _) hport hout]
    rfl
  | inputExhausted haddr hqueue =>
    rw [exec_load_of_address haddr, loadToTop_from_port (State.latched_dataAddress ..),
      inputSignal_of_nil (s := s.latched _) hqueue]
    rfl

/-! ## One of the two holds -/

/-- The dispatch of `i` on `s` ends in `t`, completed or raised. -/
def Ends (i : Instr) (s t : State) : Prop := Completes i s t ∨ ∃ c u, Raises i s c u ∧ t = u.stop c

theorem Completes.ends {i : Instr} {s t : State} (h : Completes i s t) : ∃ t, Ends i s t := ⟨t, .inl h⟩

theorem Raises.ends {i : Instr} {s u : State} {c : StopCause} (h : Raises i s c u) : ∃ t, Ends i s t :=
  ⟨u.stop c, .inr ⟨c, u, h, rfl⟩⟩

theorem Blocked.ends {i : Instr} {s : State} (h : Blocked i s) : ∃ t, Ends i s t := (Raises.blocked h).ends

theorem Ends.exec_eq {i : Instr} {s t : State} (h : Ends i s t) : exec i s = .next t := by
  obtain hdone | ⟨c, u, hraise, rfl⟩ := h
  · exact hdone.exec_eq
  · exact hraise.exec_eq

/-- `PUSH2` and `DUP`, which move `sp` and then copy the old top. -/
theorem exists_ends_copying {i : Instr} {s : State}
    (hcomplete : ∀ v, s.tos = some v → s.sp + 1 < s.cap → ∃ t, Completes i s t)
    (hblocked : s.sp < -2 ∨ s.cap ≤ s.sp + 1 → Blocked i s) (hlacks : s.tos = none → LacksCell i s) :
    ∃ t, Ends i s t := by
  by_cases hmove : s.sp < -2 ∨ s.cap ≤ s.sp + 1
  · exact (hblocked hmove).ends
  cases htop : s.tos with
  | none => exact (Raises.halfDone (by omega) (by omega) (hlacks htop)).ends
  | some v => exact (hcomplete v htop (by omega)).elim fun _ h => h.ends

theorem exists_ends_alu {i : Instr} {op : AluOp} (hop : aluOpOf i = some op) {s : State}
    (hblocked : s.sos = none ∨ s.tos = none → Blocked i s) : ∃ t, Ends i s t := by
  cases hsecond : s.sos with
  | none => exact (hblocked (.inl hsecond)).ends
  | some a =>
    cases htop : s.tos with
    | none => exact (hblocked (.inr htop)).ends
    | some b => exact (Completes.alu hop hsecond htop).ends

theorem exists_ends_pop (s : State) : ∃ t, Ends .pop s t := by
  cases haddr : s.sos with
  | none => exact Blocked.ends (i := .pop) haddr
  | some a =>
    cases htop : s.tos with
    | none => exact (Raises.popNoTop haddr htop).ends
    | some v =>
      by_cases hport : a = 1#32
      · subst hport
        exact (Completes.popToPort haddr htop).ends
      · cases hin : s.memory.inBounds a.toInt with
        | true => exact (Completes.popToMemory haddr htop hport hin).ends
        | false => exact (Raises.popOutOfRange haddr htop hport hin).ends

theorem exists_ends_load (s : State) : ∃ t, Ends .load s t := by
  cases haddr : s.tos with
  | none => exact Blocked.ends (i := .load) haddr
  | some a =>
    by_cases hport : a = 0#32
    · subst hport
      cases hqueue : s.inputQueue with
      | nil => exact (Raises.inputExhausted haddr hqueue).ends
      | cons c rest => exact (Completes.loadFromPort haddr hqueue).ends
    · cases hcell : s.memory.read a.toInt with
      | none => exact (Raises.loadOutOfRange haddr hport hcell).ends
      | some v => exact (Completes.loadFromMemory haddr hport hcell).ends

theorem exists_ends (i : Instr) (s : State) : ∃ t, Ends i s t := by
  cases i with
  | halt => exact (Raises.halt s).ends
  | jump arg => exact (Completes.jump arg s).ends
  | jz arg =>
    cases htop : s.tos with
    | none => exact Blocked.ends (i := .jz arg) htop
    | some v =>
      by_cases hv : v = 0#32
      · exact (Completes.jzTaken arg (hv ▸ htop)).ends
      · exact (Completes.jzPassed arg htop hv).ends
  | push arg =>
    by_cases hmove : s.sp < -2 ∨ s.cap ≤ s.sp + 1
    · exact Blocked.ends (i := .push arg) hmove
    by_cases hlow : s.sp = -2
    · exact (Raises.halfDone (i := .push arg) (by omega) (by omega) hlow).ends
    · exact (Completes.push arg (by omega) (by omega)).ends
  | push2 arg => exact exists_ends_copying (fun _ htop hroom => ⟨_, .push2 arg htop hroom⟩) id id
  | dup => exact exists_ends_copying (fun _ htop hroom => ⟨_, .dup htop hroom⟩) id id
  | drop =>
    by_cases hmove : s.sp < 0 ∨ s.cap < s.sp
    · exact Blocked.ends (i := .drop) hmove
    · exact (Completes.drop (by omega) (by omega)).ends
  | pop => exact exists_ends_pop s
  | load => exact exists_ends_load s
  | inc =>
    cases htop : s.tos with
    | none => exact Blocked.ends (i := .inc) htop
    | some v => exact (Completes.inc htop).ends
  | add | div | mod => exact exists_ends_alu rfl id
  | number | string | buffer => exact (Raises.declarative s rfl).ends

/-- What `exec` answers, inverted: every case is one of the two relations', and they decide the answer. -/
theorem exec_eq_next_iff {i : Instr} {s t : State} : exec i s = .next t ↔ Ends i s t := by
  refine ⟨fun h => ?_, Ends.exec_eq⟩
  obtain ⟨t', ht'⟩ := exists_ends i s
  cases h.symm.trans ht'.exec_eq
  exact ht'

end Sys2Proof.Machine
end

section
/-! The codec the other way round (R54, R56): which words decode, and to what. -/

namespace Sys2Proof.Encoding

open Sys2Proof

theorem decodeNoArg_eq_ok_iff {a : Word} {i j : Instr} : decodeNoArg a i = .ok j ↔ a = 0#32 ∧ i = j := by
  unfold decodeNoArg
  split <;> simp [*]

/-- Each row of the decoder is the row of the encoder. -/
theorem fields_of_decodeFields_eq_ok {op : BitVec 8} {a : Word} {i : Instr} (h : decodeFields op a = .ok i) :
    op.toNat = (opNumberOf i).toNat ∧ a = argOf i := by
  unfold decodeFields at h
  split at h
  case h_1 hop | h_6 hop | h_7 hop | h_8 hop | h_9 hop | h_10 hop | h_11 hop | h_12 hop | h_13 hop =>
    obtain ⟨rfl, rfl⟩ := decodeNoArg_eq_ok_iff.mp h
    exact ⟨hop, rfl⟩
  case h_17 => cases h
  all_goals
    cases h
    exact ⟨by assumption, rfl⟩

theorem encode_of_decode_eq_ok {w : CodeWord} {i : Instr} (h : decode w = .ok i) : encode i = w := by
  obtain ⟨hop, harg⟩ := fields_of_decodeFields_eq_ok h
  apply BitVec.eq_of_toNat_eq
  rw [encode_toNat, ← hop, ← harg, opField_toNat, argField_toNat, Nat.div_add_mod']

theorem encode_inj {i j : Instr} (h : encode i = encode j) : i = j := by
  have hdecode : Except.ok i = (Except.ok j : Except DecodeError Instr) := by
    rw [← decode_encode i, h, decode_encode]
  cases hdecode
  rfl

theorem wellFormed_iff (w : CodeWord) : CodeWord.wellFormed w = true ↔
    (opField w).toNat ≤ 15 ∧ (opTakesNoArg (opField w).toNat = true → (argField w).toNat = 0) := by
  have hop : w.opNumber = (opField w).toNat := (opField_toNat w).symm
  rw [CodeWord.wellFormed, Bool.and_eq_true, decide_eq_true_eq, hop, CodeWord.argIsZero, ← argField_toNat]
  cases opTakesNoArg (opField w).toNat <;> simp

theorem wellFormed_encode (i : Instr) : CodeWord.wellFormed (encode i) = true := by
  obtain ⟨hop, harg⟩ : opField (encode i) = opNumberOf i ∧ argField (encode i) = argOf i :=
    Laws.fields_append _ _
  rw [wellFormed_iff, hop, harg]
  cases i <;> simp [opNumberOf, argOf, opTakesNoArg]

theorem decodeFields_of_wellFormed {op : BitVec 8} {a : Word} (hop : op.toNat ≤ 15)
    (harg : opTakesNoArg op.toNat = true → a.toNat = 0) : ∃ i, decodeFields op a = .ok i := by
  unfold decodeFields
  split
  case h_1 h | h_6 h | h_7 h | h_8 h | h_9 h | h_10 h | h_11 h | h_12 h | h_13 h =>
    exact ⟨_, decodeNoArg_of_eq_zero _ (harg (by rw [h]; rfl))⟩
  case h_17 =>
    simp only [imp_false] at *
    omega
  all_goals exact ⟨_, rfl⟩

end Sys2Proof.Encoding

open Sys2Proof Sys2Proof.Encoding

/-- Settles O1: the decoder reads the fields the encoder put together, and each row gives its instruction. -/
theorem decodeOfEncodeIsIdentity : Obligations.DecodeOfEncodeIsIdentity := decode_encode

/-- Settles O2: the row of the decoder fixes both fields, and the two fields are all the bits there are. -/
theorem encodeOfDecodeIsIdentity : Obligations.EncodeOfDecodeIsIdentity := fun _ _ => encode_of_decode_eq_ok

/-- Settles O4: a word that decodes is an encoder's word, which is well formed; in a well-formed word every row of the
decoder accepts. -/
theorem decodeAcceptsExactlyWellFormedWords : Obligations.DecodeAcceptsExactlyWellFormedWords := by
  intro w
  constructor
  · rintro ⟨i, hi⟩
    rw [← encode_of_decode_eq_ok hi]
    exact wellFormed_encode i
  · intro h
    obtain ⟨hop, harg⟩ := (wellFormed_iff w).mp h
    exact decodeFields_of_wellFormed hop harg

/-- Settles O5: the decoder computes each of the eight. -/
theorem specWordsDecodeToTheirInstructions : Obligations.SpecWordsDecodeToTheirInstructions := by
  unfold Obligations.SpecWordsDecodeToTheirInstructions
  decide

end

section
/-! One step, said once: `Steps` lists the ways a step of a running core can go (R63 to R68, R126), and
`step_eq_next_iff` ties it to `step`. -/

namespace Sys2Proof.Machine

open Sys2Proof.Encoding

theorem fetchWord_eq_some_iff {s : State} {w : CodeWord} :
    fetchWord s = some w ↔ 0 ≤ s.pc.toInt ∧ s.code[s.pc.toInt.toNat]? = some w := by
  unfold fetchWord
  split
  · simp; omega
  · simp; omega

/-- All one step of a running core can do. -/
inductive Steps : State → State → Prop
  | ceiling {s : State} (hrun : s.runState = .running) (hlimit : s.tickLimit ≤ s.tick) :
      Steps s (s.stop .tickLimitExceeded)
  | noWord {s : State} (hrun : s.runState = .running) (hbelow : s.tick < s.tickLimit) (hfetch : fetchWord s = none) :
      Steps s (s.stop (.runtimeFault .pcBounds))
  | undecodable {s : State} {w : CodeWord} {e : DecodeError} (hrun : s.runState = .running)
      (hbelow : s.tick < s.tickLimit) (hfetch : fetchWord s = some w) (herror : decode w = .error e) :
      Steps s ((s.fetched w).stop .decodeFault)
  | completes {s t : State} {i : Instr} (habout : AboutToRun i s) (hdone : Completes i (s.fetched (encode i)) t) :
      Steps s t.counted
  | raises {s u : State} {i : Instr} {c : StopCause} (habout : AboutToRun i s)
      (hraise : Raises i (s.fetched (encode i)) c u) : Steps s (u.stop c)

theorem Completes.runState_eq {i : Instr} {s t : State} (h : Completes i s t) : t.runState = s.runState := by
  cases h <;> rfl

theorem Steps.step_eq {s t : State} (h : Steps s t) : step s = .next t := by
  cases h with
  | ceiling hrun hlimit =>
    simp only [step, runController, hrun, ceilingReached, hlimit, decide_true, if_true]
    rfl
  | noWord hrun hbelow hfetch => exact step_of_fetchWord_eq_none hrun hbelow hfetch
  | undecodable hrun hbelow hfetch herror =>
    rw [step_eq_cycle hrun hbelow, cycle, fetch_eq_goes hfetch]
    simp only [dispatchAndFinish, dispatchIr, State.fetched_ir, herror]
    rfl
  | completes habout hdone =>
    exact habout.step_of_exec_running hdone.exec_eq (hdone.runState_eq.trans habout.running)
  | raises habout hraise =>
    rw [habout.step_eq hraise.exec_eq, finishCycle_stopped rfl]

theorem exists_steps {s : State} (hrun : s.runState = .running) : ∃ t, Steps s t := by
  by_cases hlimit : s.tickLimit ≤ s.tick
  · exact ⟨_, .ceiling hrun hlimit⟩
  have hbelow : s.tick < s.tickLimit := Nat.lt_of_not_le hlimit
  cases hfetch : fetchWord s with
  | none => exact ⟨_, .noWord hrun hbelow hfetch⟩
  | some w =>
    cases hdecode : decode w with
    | error e => exact ⟨_, .undecodable hrun hbelow hfetch hdecode⟩
    | ok i =>
      obtain rfl : encode i = w := encode_of_decode_eq_ok hdecode
      have habout : AboutToRun i s := ⟨hrun, hbelow, fetchWord_eq_some_iff.mp hfetch⟩
      obtain ⟨t, hdone | ⟨c, u, hraise, rfl⟩⟩ := exists_ends i (s.fetched (encode i))
      · exact ⟨_, .completes habout hdone⟩
      · exact ⟨_, .raises habout hraise⟩

theorem step_of_stopped {s : State} {c : StopCause} (h : s.runState = .stopped c) : step s = .fault (.stopped c) := by
  simp [step, runController, h]

theorem step_eq_next_iff {s t : State} : step s = .next t ↔ Steps s t := by
  refine ⟨fun h => ?_, Steps.step_eq⟩
  cases hrun : s.runState with
  | running =>
    obtain ⟨t', ht'⟩ := exists_steps hrun
    cases h.symm.trans ht'.step_eq
    exact ht'
  | stopped c => cases h.symm.trans (step_of_stopped hrun)

theorem Steps.running {s t : State} (h : Steps s t) : s.runState = .running := by
  cases h with
  | ceiling hrun | noWord hrun | undecodable hrun => exact hrun
  | completes habout | raises habout => exact habout.running

/-- The word at `pc` tells which instruction is about to run. -/
theorem AboutToRun.unique {i j : Instr} {s : State} (hi : AboutToRun i s) (hj : AboutToRun j s) : i = j :=
  encode_inj (Option.some.inj (hi.fetchWord.symm.trans hj.fetchWord))

end Sys2Proof.Machine
end

section
/-! What every dispatch arm keeps, completed or raised: the facts the invariant and the frames are made of. -/

namespace Sys2Proof.Machine

theorem eq_add_or_div_or_mod {i : Instr} {op : AluOp} (h : aluOpOf i = some op) :
    i = .add ∨ i = .div ∨ i = .mod := by
  cases i <;> simp [aluOpOf] at h ⊢

/-! ## Parameters -/

theorem Completes.sameParameters {i : Instr} {s t : State} (h : Completes i s t) : SameParameters s t := by
  cases h <;> simp [SameParameters, State.cap]

theorem Raises.sameParameters {i : Instr} {s u : State} {c : StopCause} (h : Raises i s c u) :
    SameParameters s u := by
  cases h <;> simp [SameParameters, State.cap]

theorem Ends.sameParameters {i : Instr} {s t : State} (h : Ends i s t) : SameParameters s t := by
  obtain hdone | ⟨c, u, hraise, rfl⟩ := h
  · exact hdone.sameParameters
  · exact hraise.sameParameters

theorem Steps.sameParameters {s t : State} (h : Steps s t) : SameParameters s t := by
  cases h with
  | ceiling | noWord | undecodable => exact ⟨rfl, rfl, rfl, rfl⟩
  | completes _ hdone => exact hdone.sameParameters
  | raises _ hraise => exact hraise.sameParameters

/-! ## The legal range of `sp` and the form of data memory -/

theorem Completes.spLegal {i : Instr} {s t : State} (h : Completes i s t) (hs : s.SpLegal) : t.SpLegal := by
  have hcap : t.cap = s.cap := h.sameParameters.2.2.1
  rw [State.SpLegal, hcap]
  obtain ⟨hlow, hhigh⟩ := hs
  cases h with
  | jump | jzTaken | jzPassed | loadFromPort | loadFromMemory | inc => exact ⟨hlow, hhigh⟩
  | push | push2 | dup =>
    simp only [State.setStack_sp, State.grown_sp]
    omega
  | drop =>
    simp only
    omega
  | popToPort haddr | popToMemory haddr | alu _ haddr =>
    have hbounds := readStack_bounds haddr
    simp only
    omega

theorem Raises.spLegal {i : Instr} {s u : State} {c : StopCause} (h : Raises i s c u) (hs : s.SpLegal) :
    u.SpLegal := by
  cases h with
  | halfDone _ hroom =>
    have hlow : -1 ≤ s.sp := hs.1
    exact ⟨show -1 ≤ s.sp + 1 by omega, hroom⟩
  | _ => exact hs

theorem Completes.memory_wf {i : Instr} {s t : State} (h : Completes i s t) (hs : s.memory.wf = true) :
    t.memory.wf = true := by
  cases h with
  | popToMemory _ _ _ hin => exact Memory.wf_set hs hin
  | _ => exact hs

theorem Raises.memory_eq {i : Instr} {s u : State} {c : StopCause} (h : Raises i s c u) : u.memory = s.memory := by
  cases h <;> rfl

/-! ## The counters -/

theorem Completes.tick_bounds {i : Instr} {s t : State} (h : Completes i s t) :
    s.tick ≤ t.tick ∧ t.tick ≤ s.tick + 2 := by
  cases h <;> simp

theorem Completes.instrCount_eq {i : Instr} {s t : State} (h : Completes i s t) : t.instrCount = s.instrCount := by
  cases h <;> rfl

theorem Raises.tick_bounds {i : Instr} {s u : State} {c : StopCause} (h : Raises i s c u) :
    s.tick ≤ u.tick ∧ u.tick ≤ s.tick + 1 := by
  cases h <;> simp

theorem Raises.instrCount_eq {i : Instr} {s u : State} {c : StopCause} (h : Raises i s c u) :
    u.instrCount = s.instrCount := by
  cases h <;> rfl

/-- A step completes a cycle, which takes 2 to 4 ticks and is counted, or stops the core uncounted after at most 2
ticks. Only a step that begins below the ceiling charges a tick. -/
theorem Steps.counters {s t : State} (h : Steps s t) :
    (t.runState = .running ∧ s.tick < s.tickLimit ∧ s.tick + 2 ≤ t.tick ∧ t.tick ≤ s.tick + 4 ∧
        t.instrCount = s.instrCount + 1) ∨
      ((∃ c, t.runState = .stopped c) ∧ (s.tick < s.tickLimit ∨ t.tick = s.tick) ∧ s.tick ≤ t.tick ∧
        t.tick ≤ s.tick + 2 ∧ t.instrCount = s.instrCount) := by
  cases h with
  | ceiling => exact .inr ⟨⟨_, rfl⟩, .inr rfl, by simp⟩
  | noWord _ hbelow => exact .inr ⟨⟨_, rfl⟩, .inl hbelow, by simp⟩
  | undecodable _ hbelow => exact .inr ⟨⟨_, rfl⟩, .inl hbelow, by simp⟩
  | completes habout hdone =>
    obtain ⟨hlow, hhigh⟩ := hdone.tick_bounds
    refine .inl ⟨hdone.runState_eq.trans habout.running, habout.below_ceiling, ?_⟩
    simp only [State.fetched_tick, State.counted_tick, State.counted_instrCount, hdone.instrCount_eq,
      State.fetched_instrCount, and_true] at *
    omega
  | raises habout hraise =>
    obtain ⟨hlow, hhigh⟩ := hraise.tick_bounds
    refine .inr ⟨⟨_, rfl⟩, .inl habout.below_ceiling, ?_⟩
    simp only [State.fetched_tick, State.stop_tick, State.stop_instrCount, hraise.instrCount_eq,
      State.fetched_instrCount, and_true] at *
    omega

/-! ## The invariant -/

theorem Steps.spLegal {s t : State} (h : Steps s t) (hs : s.SpLegal) : t.SpLegal := by
  cases h with
  | ceiling | noWord | undecodable => exact hs
  | completes _ hdone => exact hdone.spLegal hs
  | raises _ hraise => exact hraise.spLegal hs

theorem Steps.memory_wf {s t : State} (h : Steps s t) (hs : s.memory.wf = true) : t.memory.wf = true := by
  cases h with
  | ceiling | noWord | undecodable => exact hs
  | completes _ hdone => exact hdone.memory_wf hs
  | raises _ hraise => exact hraise.memory_eq ▸ hs

theorem Steps.inv {s t : State} (h : Steps s t) (hs : s.Inv) : t.Inv := by
  obtain ⟨hsp, ⟨hwf, hsize⟩, hcode, ⟨hlow, hhigh⟩, hceiling⟩ := hs
  obtain ⟨hcodeEq, hlimitEq, -, hsizeEq⟩ := h.sameParameters
  have hrun : uncountedTicks s.runState = 0 := by rw [h.running]; rfl
  have hmem : t.MemoryLegal := ⟨h.memory_wf hwf, hsizeEq ▸ hsize⟩
  have hcodeLegal : t.CodeLegal := by rw [State.CodeLegal, State.codeSize, hcodeEq]; exact hcode
  refine ⟨h.spLegal hsp, hmem, hcodeLegal, ?_⟩
  rw [State.CeilingKept, State.CountersLegal, hlimitEq]
  obtain ⟨hgo, hbelow, hmin, hmax, hcount⟩ | ⟨⟨c, hstop⟩, hbelow, hmin, hmax, hcount⟩ := h.counters
  · rw [hgo]
    simp only [uncountedTicks] at *
    omega
  · rw [hstop]
    simp only [uncountedTicks] at *
    omega

end Sys2Proof.Machine

open Sys2Proof Sys2Proof.Machine

/-- Settles O16: each part of the invariant is kept by every case of a step; the two counters move together, and only
from below the ceiling. -/
theorem stepKeepsTheInvariant : Obligations.StepKeepsTheInvariant :=
  fun _ _ hs hstep => (step_eq_next_iff.mp hstep).inv hs

/-- Settles O17: no case of a step writes one of them. -/
theorem stepKeepsTheParameters : Obligations.StepKeepsTheParameters :=
  fun _ _ hstep => (step_eq_next_iff.mp hstep).sameParameters

/-- Settles O52: the two ways the counters of a step can move. -/
theorem countersOnlyGrow : Obligations.CountersOnlyGrow := by
  intro s t hstep
  obtain ⟨-, -, hmin, hmax, hcount⟩ | ⟨-, -, hmin, hmax, hcount⟩ := (step_eq_next_iff.mp hstep).counters
  · omega
  · omega

end

section
/-! What a program cannot observe (R28): two states that differ only in hidden state take the same steps. -/

namespace Sys2Proof.Machine

/-- `s` with other hidden contents: the stack cells, `data_address`, `ir` and data memory. -/
def State.withHidden (s : State) (stack : List Word) (dataAddress : Word) (ir : CodeWord) (memory : Memory) : State :=
  { s with stack := stack, dataAddress := dataAddress, ir := ir, memory := memory }

theorem SameObservable.exists_withHidden {s s' : State} (h : SameObservable s s') :
    ∃ stack dataAddress ir memory, s' = s.withHidden stack dataAddress ir memory :=
  ⟨_, _, _, _, h.1⟩

/-! ## What the two states agree in -/

theorem SameObservable.sp_eq {s s' : State} (h : SameObservable s s') : s'.sp = s.sp := by
  obtain ⟨_, _, _, _, rfl⟩ := h.exists_withHidden
  rfl

theorem SameObservable.cap_eq {s s' : State} (h : SameObservable s s') : s'.cap = s.cap := h.2.1

theorem SameObservable.readStack_eq {s s' : State} (h : SameObservable s s') {i : Int} (hi : i ≤ s.sp) :
    readStack s' i = readStack s i := h.2.2.1 i hi

theorem SameObservable.tos_eq {s s' : State} (h : SameObservable s s') : s'.tos = s.tos := by
  rw [State.tos, h.sp_eq]
  exact h.readStack_eq le_rfl

theorem SameObservable.sos_eq {s s' : State} (h : SameObservable s s') : s'.sos = s.sos := by
  rw [State.sos, h.sp_eq]
  exact h.readStack_eq (by omega)

theorem SameObservable.memory_size_eq {s s' : State} (h : SameObservable s s') :
    s'.memory.size = s.memory.size := h.2.2.2.1

theorem SameObservable.inBounds_eq {s s' : State} (h : SameObservable s s') (a : Int) :
    s'.memory.inBounds a = s.memory.inBounds a := by
  rw [Memory.inBounds, h.memory_size_eq, Memory.inBounds]

theorem SameObservable.read_eq {s s' : State} (h : SameObservable s s') {a : Int} (ha : a ≠ 0) :
    s'.memory.read a = s.memory.read a := h.2.2.2.2 a ha

theorem toInt_ne_zero {a : Word} (h : a ≠ 0#32) : a.toInt ≠ 0 := fun h0 => h (BitVec.eq_of_toInt_eq h0)

theorem SameObservable.blocked_iff {s s' : State} (h : SameObservable s s') (i : Instr) :
    Blocked i s' ↔ Blocked i s := by
  unfold Blocked
  rw [h.sp_eq, h.cap_eq, h.tos_eq, h.sos_eq]

theorem SameObservable.lacksCell_iff {s s' : State} (h : SameObservable s s') (i : Instr) :
    LacksCell i s' ↔ LacksCell i s := by
  unfold LacksCell
  rw [h.sp_eq, h.tos_eq]

/-! ## What keeps the agreement -/

/-- Writing one value to one cell of both stacks makes them agree there. -/
theorem readStack_setStack_congr {s s' : State} {i j : Int} (v : Word) (hcap : s'.cap = s.cap) (h0 : 0 ≤ i)
    (h : j ≠ i → readStack s' j = readStack s j) :
    readStack (s'.setStack i v) j = readStack (s.setStack i v) j := by
  by_cases hj : j = i
  · subst hj
    by_cases h1 : j < s.cap
    · rw [readStack_setStack_same h0 h1, readStack_setStack_same h0 (hcap ▸ h1)]
    · rw [readStack_eq_none (.inr (by simp; omega)), readStack_eq_none (.inr (by simp; omega))]
  · rw [readStack_setStack_other h0 hj, readStack_setStack_other h0 hj, h hj]

/-- Writing one value to one cell of both memories keeps them equal where they were. -/
theorem Memory.read_set_congr {m m' : Memory} {a b : Int} (v : Word) (hm : m.wf = true) (hm' : m'.wf = true)
    (ha : m.inBounds a = true) (ha' : m'.inBounds a = true) (h : m'.read b = m.read b) :
    (m'.set a v).read b = (m.set a v).read b := by
  by_cases hb : b = a
  · rw [hb, Memory.read_set_same hm ha, Memory.read_set_same hm' ha']
  · rw [Memory.read_set_other ha hb, Memory.read_set_other ha' hb, h]

theorem SameObservable.fetched {s s' : State} (h : SameObservable s s') (w : CodeWord) :
    SameObservable (s.fetched w) (s'.fetched w) := by
  obtain ⟨_, _, _, _, rfl⟩ := h.exists_withHidden
  exact ⟨rfl, h.2⟩

theorem SameObservable.latched {s s' : State} (h : SameObservable s s') (a : Word) :
    SameObservable (s.latched a) (s'.latched a) := by
  obtain ⟨_, _, _, _, rfl⟩ := h.exists_withHidden
  exact ⟨rfl, h.2⟩

theorem SameObservable.counted {s s' : State} (h : SameObservable s s') : SameObservable s.counted s'.counted := by
  obtain ⟨_, _, _, _, rfl⟩ := h.exists_withHidden
  exact ⟨rfl, h.2⟩

theorem SameObservable.setStack {s s' : State} (h : SameObservable s s') {i : Int} (h0 : 0 ≤ i) (v : Word) :
    SameObservable (s.setStack i v) (s'.setStack i v) := by
  obtain ⟨_, _, _, _, rfl⟩ := h.exists_withHidden
  obtain ⟨-, hcap, hstack, hmem⟩ := h
  exact ⟨rfl, by simpa using hcap,
    fun j hj => readStack_setStack_congr v hcap h0 fun _ => hstack j hj, hmem⟩

/-- A cell that comes to life is written in both. -/
theorem SameObservable.grown_setStack {s s' : State} (h : SameObservable s s') (h0 : -1 ≤ s.sp) (v : Word) :
    SameObservable (s.grown.setStack (s.sp + 1) v) (s'.grown.setStack (s'.sp + 1) v) := by
  obtain ⟨_, _, _, _, rfl⟩ := h.exists_withHidden
  obtain ⟨-, hcap, hstack, hmem⟩ := h
  refine ⟨rfl, by simpa using hcap, fun j hj => ?_, hmem⟩
  have hle : j ≤ s.sp + 1 := hj
  refine readStack_setStack_congr v hcap (show 0 ≤ s.sp + 1 by omega) fun hne => hstack j ?_
  have hne' : j ≠ s.sp + 1 := hne
  omega

/-- Fewer live cells, and other visible registers changed alike, leave the agreement. -/
theorem SameObservable.lower {s s' : State} (h : SameObservable s s') {d : Int} (hd : d ≤ s.sp) (out : List Word) :
    SameObservable { s with sp := d, outputSeq := out } { s' with sp := d, outputSeq := out } := by
  obtain ⟨_, _, _, _, rfl⟩ := h.exists_withHidden
  obtain ⟨-, hcap, hstack, hmem⟩ := h
  exact ⟨rfl, hcap, fun j hj => hstack j (le_trans hj hd), hmem⟩

theorem SameObservable.withRegisters {s s' : State} (h : SameObservable s s') (pc : Word) (queue : List Word)
    (tick : Nat) : SameObservable { s with pc := pc, inputQueue := queue, tick := tick }
      { s' with pc := pc, inputQueue := queue, tick := tick } := by
  obtain ⟨_, _, _, _, rfl⟩ := h.exists_withHidden
  exact ⟨rfl, h.2⟩

theorem SameObservable.setMemory {s s' : State} (h : SameObservable s s') (hwf : s.memory.wf = true)
    (hwf' : s'.memory.wf = true) {a : Int} (ha : s.memory.inBounds a = true) (v : Word) :
    SameObservable { s with memory := s.memory.set a v } { s' with memory := s'.memory.set a v } := by
  have ha' : s'.memory.inBounds a = true := (h.inBounds_eq a).trans ha
  obtain ⟨_, _, _, _, rfl⟩ := h.exists_withHidden
  obtain ⟨-, hcap, hstack, hsize, hread⟩ := h
  exact ⟨rfl, hcap, hstack, hsize, fun b hb => Memory.read_set_congr v hwf hwf' ha ha' (hread b hb)⟩

/-! ## The simulation -/

theorem Completes.simulate {i : Instr} {s s' t : State} (hdone : Completes i s t) (h : SameObservable s s')
    (hwf : s.memory.wf = true) (hwf' : s'.memory.wf = true) : ∃ t', Completes i s' t' ∧ SameObservable t t' := by
  have htos := h.tos_eq
  have hsos := h.sos_eq
  have hcap := h.cap_eq
  have hin := h.inBounds_eq
  have hread (a : Word) (ha : a ≠ 0#32) : s'.memory.read a.toInt = s.memory.read a.toInt :=
    h.read_eq (toInt_ne_zero ha)
  obtain ⟨stack, dataAddress, ir, memory, rfl⟩ := h.exists_withHidden
  cases hdone with
  | jump arg => exact ⟨_, .jump arg _, h.withRegisters arg _ _⟩
  | jzTaken arg hzero => exact ⟨_, .jzTaken arg (htos.trans hzero), h.withRegisters arg _ _⟩
  | jzPassed arg htop hne => exact ⟨_, .jzPassed arg (htos.trans htop) hne, h⟩
  | push arg hlow hroom => exact ⟨_, .push arg hlow (hcap ▸ hroom), h.grown_setStack hlow arg⟩
  | push2 arg htop hroom =>
    have hbounds := readStack_bounds htop
    exact ⟨_, .push2 arg (htos.trans htop) (hcap ▸ hroom),
      ((h.grown_setStack (by omega) _).withRegisters _ _ _).setStack hbounds.1 arg⟩
  | dup htop hroom =>
    have hbounds := readStack_bounds htop
    exact ⟨_, .dup (htos.trans htop) (hcap ▸ hroom), h.grown_setStack (by omega) _⟩
  | drop hlow hhigh => exact ⟨_, .drop hlow (hcap ▸ hhigh), h.lower (by omega) _⟩
  | popToPort haddr htop =>
    exact ⟨_, .popToPort (hsos.trans haddr) (htos.trans htop),
      (h.latched _).lower (show s.sp - 2 ≤ s.sp by omega) _⟩
  | popToMemory haddr htop hport hbounds =>
    exact ⟨_, .popToMemory (hsos.trans haddr) (htos.trans htop) hport ((hin _).trans hbounds),
      ((h.latched _).setMemory hwf hwf' hbounds _).lower (show s.sp - 2 ≤ s.sp by omega) _⟩
  | loadFromPort haddr hqueue =>
    have hbounds := readStack_bounds haddr
    exact ⟨_, .loadFromPort (htos.trans haddr) hqueue,
      ((h.latched _).withRegisters _ _ _).setStack hbounds.1 _⟩
  | loadFromMemory haddr hport hcell =>
    have hbounds := readStack_bounds haddr
    exact ⟨_, .loadFromMemory (htos.trans haddr) hport ((hread _ hport).trans hcell),
      (h.latched _).setStack hbounds.1 _⟩
  | inc htop =>
    have hbounds := readStack_bounds htop
    exact ⟨_, .inc (htos.trans htop), h.setStack hbounds.1 _⟩
  | alu hop hsecond htop =>
    have hbounds := readStack_bounds hsecond
    exact ⟨_, .alu hop (hsos.trans hsecond) (htos.trans htop),
      (h.setStack hbounds.1 _).lower (show s.sp - 1 ≤ s.sp by omega) _⟩

/-- A raise comes to the same cause, in states that still differ in hidden state only. -/
theorem Raises.simulate {i : Instr} {s s' u : State} {c : StopCause} (hraise : Raises i s c u)
    (h : SameObservable s s') : ∃ u' stack dataAddress ir memory,
      Raises i s' c u' ∧ u' = u.withHidden stack dataAddress ir memory := by
  have htos := h.tos_eq
  have hsos := h.sos_eq
  have hcap := h.cap_eq
  have hin := h.inBounds_eq
  have hread (a : Word) (ha : a ≠ 0#32) : s'.memory.read a.toInt = s.memory.read a.toInt :=
    h.read_eq (toInt_ne_zero ha)
  have hblocked := h.blocked_iff i
  have hlacks := h.lacksCell_iff i
  obtain ⟨stack, dataAddress, ir, memory, rfl⟩ := h.exists_withHidden
  cases hraise with
  | halt => exact ⟨_, _, _, _, _, .halt _, rfl⟩
  | declarative _ hdecl => exact ⟨_, _, _, _, _, .declarative _ hdecl, rfl⟩
  | blocked hb => exact ⟨_, _, _, _, _, .blocked (hblocked.mpr hb), rfl⟩
  | halfDone hlow hroom hl => exact ⟨_, _, _, _, _, .halfDone hlow (hcap ▸ hroom) (hlacks.mpr hl), rfl⟩
  | popNoTop haddr htop => exact ⟨_, _, _, _, _, .popNoTop (hsos.trans haddr) (htos.trans htop), rfl⟩
  | popOutOfRange haddr htop hport hout =>
    exact ⟨_, _, _, _, _, .popOutOfRange (hsos.trans haddr) (htos.trans htop) hport ((hin _).trans hout), rfl⟩
  | loadOutOfRange haddr hport hout =>
    exact ⟨_, _, _, _, _, .loadOutOfRange (htos.trans haddr) hport ((hread _ hport).trans hout), rfl⟩
  | inputExhausted haddr hqueue => exact ⟨_, _, _, _, _, .inputExhausted (htos.trans haddr) hqueue, rfl⟩

/-- One step from two states that differ in hidden state only. -/
theorem Steps.simulate {s s' t : State} (hstep : Steps s t) (h : SameObservable s s')
    (hwf : s.memory.wf = true) (hwf' : s'.memory.wf = true) : ∃ t', Steps s' t' ∧
      (∃ stack dataAddress ir memory, t' = t.withHidden stack dataAddress ir memory) ∧
      (t.runState = .running → SameObservable t t') := by
  have hfetched := h.fetched
  obtain ⟨stack, dataAddress, ir, memory, rfl⟩ := h.exists_withHidden
  cases hstep with
  | ceiling hrun hlimit => exact ⟨_, .ceiling hrun hlimit, ⟨_, _, _, _, rfl⟩, nofun⟩
  | noWord hrun hbelow hfetch => exact ⟨_, .noWord hrun hbelow hfetch, ⟨_, _, _, _, rfl⟩, nofun⟩
  | undecodable hrun hbelow hfetch herror =>
    exact ⟨_, .undecodable hrun hbelow hfetch herror, ⟨_, _, _, _, rfl⟩, nofun⟩
  | completes habout hdone =>
    obtain ⟨t', hdone', hsame⟩ := hdone.simulate (hfetched _) hwf hwf'
    exact ⟨_, .completes habout hdone', hsame.counted.exists_withHidden, fun _ => hsame.counted⟩
  | raises habout hraise =>
    obtain ⟨_, stack', dataAddress', ir', memory', hraise', rfl⟩ := hraise.simulate (hfetched _)
    exact ⟨_, .raises habout hraise', ⟨stack', dataAddress', ir', memory', rfl⟩, nofun⟩

end Sys2Proof.Machine

open Sys2Proof Sys2Proof.Machine

/-- Settles O55: each way a step can go for one state is open to the other, since its conditions read live cells and
`memory` away from 0 only, and it writes the same values to both. -/
theorem staleStateIsUnobservable : Obligations.StaleStateIsUnobservable := by
  intro s s' hwf hwf' hsame hrun
  obtain ⟨t, hstep⟩ := exists_steps hrun
  obtain ⟨t', hstep', ⟨_, _, _, _, rfl⟩, hkeep⟩ := hstep.simulate hsame hwf hwf'
  exact ⟨t, _, hstep.step_eq, hstep'.step_eq, rfl, hkeep⟩

end

section
/-! The floor remainder (R97), and the wraps of INC and ADD (R94, R95). -/

namespace Sys2Proof.Machine

theorem word_toInt_bounds (a : Word) : -2147483648 ≤ a.toInt ∧ a.toInt < 2147483648 :=
  ⟨a.le_toInt, a.toInt_lt⟩

theorem wrap32_toInt_of_mem {v : Int} (h0 : -2147483648 ≤ v) (h1 : v < 2147483648) : (wrap32 v).toInt = v := by
  rw [wrap32_toInt]
  omega

/-- The remainder of a floor division lies between 0 and the divisor. -/
theorem fmod_between (a : Int) {b : Int} (hb : b ≠ 0) :
    (0 < b ∧ 0 ≤ a.fmod b ∧ a.fmod b < b) ∨ (b < 0 ∧ b < a.fmod b ∧ a.fmod b ≤ 0) := by
  obtain hneg | hpos := lt_or_gt_of_ne hb
  · have hneg' : 0 < -b := by omega
    have hflip := Int.neg_fmod_neg a b
    have hnonneg := Int.fmod_nonneg_of_pos (-a) hneg'
    have hlt := Int.fmod_lt_of_pos (-a) hneg'
    exact .inr ⟨hneg, by omega, by omega⟩
  · exact .inl ⟨hpos, Int.fmod_nonneg_of_pos a hpos, Int.fmod_lt_of_pos a hpos⟩

theorem floorMod_eq_fmod (a b : Int) : floorMod a b = a.fmod b := (Int.fmod_def a b).symm

/-- No wrap changes the remainder: it is in the range of its divisor. -/
theorem alu_mod_toInt {b : Word} (hb : b ≠ 0#32) (a : Word) : (alu .mod b a).toInt = a.toInt.fmod b.toInt := by
  have hwrap : alu .mod b a = wrap32 (a.toInt.fmod b.toInt) := by
    rw [← floorMod_eq_fmod]
    exact if_neg hb
  have hbounds := word_toInt_bounds b
  obtain ⟨_, _, _⟩ | ⟨_, _, _⟩ := fmod_between a.toInt (toInt_ne_zero hb)
  · rw [hwrap, wrap32_toInt_of_mem (by omega) (by omega)]
  · rw [hwrap, wrap32_toInt_of_mem (by omega) (by omega)]

theorem wrap32_succ (v : Word) : wrap32 (v.toInt + 1) = v + 1#32 := by
  apply BitVec.eq_of_toInt_eq
  rw [wrap32, BitVec.toInt_ofInt, BitVec.toInt_add]
  rfl

theorem alu_add (a b : Word) : alu .add b a = a + b := by
  apply BitVec.eq_of_toInt_eq
  rw [alu, wrap32, BitVec.toInt_ofInt, BitVec.toInt_add]

end Sys2Proof.Machine

open Sys2Proof Sys2Proof.Machine

/-- Settles O33: the remainder is `Int.fmod`, on either side of 0 with its divisor. -/
theorem remainderHasTheSignOfTheDivisor : Obligations.RemainderHasTheSignOfTheDivisor := by
  intro a b hb r
  have hr : r = a.toInt.fmod b.toInt := alu_mod_toInt hb a
  refine ⟨?sign, ?size, hr ▸ Int.dvd_self_sub_fmod⟩
  case sign => obtain ⟨_, _, _⟩ | ⟨_, _, _⟩ := fmod_between a.toInt (toInt_ne_zero hb) <;> omega
  case size =>
    obtain ⟨hpos, h0, hlt⟩ | ⟨hneg, hlt, h0⟩ := fmod_between a.toInt (toInt_ne_zero hb)
    · rwa [hr, abs_of_nonneg h0, abs_of_pos hpos]
    · rw [hr, abs_of_nonpos h0, abs_of_neg hneg]
      omega

/-- Settles O34: `wrap32` of the successor is the word's own increment. -/
theorem incAddsOneToTheTop : Obligations.IncAddsOneToTheTop := by
  intro b s htop
  rw [(Completes.inc htop).exec_eq, wrap32_succ]
  rfl

/-- Settles O35: `wrap32` of the exact sum is the words' own sum. -/
theorem addReplacesTwoCellsByTheirSum : Obligations.AddReplacesTwoCellsByTheirSum := by
  intro a b s hsecond htop
  rw [(Completes.alu (i := .add) rfl hsecond htop).exec_eq, alu_add]
  rfl

/-- Settles O36: the quotient is the ALU's, with the top as its `left` operand. -/
theorem divReplacesTwoCellsByTheFloorQuotient : Obligations.DivReplacesTwoCellsByTheFloorQuotient := by
  intro a b s hsecond htop
  refine ⟨alu .div b a, (Completes.alu (i := .div) rfl hsecond htop).exec_eq, ?_, fun hb => ?_⟩
  · rintro rfl
    rfl
  · exact alu_div_of_ne_zero a hb

/-- Settles O37: the exact remainder needs no wrap. -/
theorem modReplacesTwoCellsByTheFloorRemainder : Obligations.ModReplacesTwoCellsByTheFloorRemainder := by
  intro a b s hsecond htop
  refine ⟨alu .mod b a, (Completes.alu (i := .mod) rfl hsecond htop).exec_eq, ?_, fun hb => ?_⟩
  · rintro rfl
    rfl
  · rw [alu_mod_toInt hb, ← floorMod_eq_fmod, floorMod, floorDiv_eq_floor]

end

section
/-! The instructions one by one (R83 to R91), on the states where they complete and where they raise. -/

namespace Sys2Proof.Machine

open Sys2Proof.Encoding

/-- `PUSH` after `PUSH`: the literals stand above the old top in order, and every other cell is left alone. -/
theorem execAll_push (args : List Word) (s : State) (hlow : -1 ≤ s.sp) (hroom : s.sp + args.length < s.cap) :
    ∃ t, execAll (args.map Instr.push) s = .next t ∧ t.sp = s.sp + args.length ∧
      (∀ i : Nat, i < args.length → readStack t (s.sp + 1 + i) = args[i]?) ∧
      ∀ j : Int, j ≤ s.sp ∨ s.sp + args.length < j → readStack t j = readStack s j := by
  induction args generalizing s with
  | nil => exact ⟨s, rfl, by simp, by simp, fun _ _ => rfl⟩
  | cons arg rest ih =>
    rw [List.length_cons] at *
    have hroom' : s.sp + 1 < s.cap := by omega
    obtain ⟨t, hrun, hsp, hcells, hothers⟩ := ih (s.grown.setStack (s.sp + 1) arg)
      (by simp; omega) (by simp; omega)
    have hsp' : (s.grown.setStack (s.sp + 1) arg).sp = s.sp + 1 := rfl
    rw [hsp'] at hsp hcells hothers
    refine ⟨t, ?_, by omega, fun i hi => ?_, fun j hj => ?_⟩
    · rw [List.map_cons, execAll, (Completes.push arg hlow hroom').exec_eq]
      exact hrun
    · cases i with
      | zero =>
        rw [hothers _ (.inl (by simp))]
        simpa using readStack_setStack_same (s := s.grown) (show 0 ≤ s.sp + 1 by omega) hroom'
      | succ n =>
        have hindex : s.sp + 1 + (n + 1 : Nat) = s.sp + 1 + 1 + n := by omega
        rw [hindex, hcells n (by omega), List.getElem?_cons_succ]
    · rw [hothers j (by omega)]
      exact readStack_setStack_other (s := s.grown) (show 0 ≤ s.sp + 1 by omega) (by omega)

end Sys2Proof.Machine

open Sys2Proof Sys2Proof.Machine Sys2Proof.Encoding

/-- Settles O18: the dispatch raises in the state the fetch left. -/
theorem haltStopsTheCore : Obligations.HaltStopsTheCore :=
  ⟨fun s => (Raises.halt s).exec_eq, fun _ habout => (Steps.raises habout (.halt _)).step_eq⟩

/-- Settles O20: the two ways a `JZ` that can read the top completes. -/
theorem jzJumpsExactlyOnZero : Obligations.JzJumpsExactlyOnZero := by
  intro arg v s htop
  exact ⟨fun hv => (Completes.jzTaken arg (hv ▸ htop)).exec_eq,
    fun hv => (Completes.jzPassed arg htop hv).exec_eq⟩

/-- Settles O21: the raise finds the state the dispatch began with. -/
theorem declarativeOpcodesRaiseDecodeFault : Obligations.DeclarativeOpcodesRaiseDecodeFault :=
  fun _ s hdecl => (Raises.declarative s hdecl).exec_eq

/-- Settles O22: a full stack refuses the move of `sp`; below it the move, the inner tick and the write follow one
another, between the fetch tick and the trailing tick. -/
theorem pushPlacesItsLiteralOnTop : Obligations.PushPlacesItsLiteralOnTop := by
  refine ⟨fun arg => encode_toNat (.push arg), fun arg s hlow hroom => (Completes.push arg hlow hroom).exec_eq,
    fun arg s _ hfull => Blocked.exec_eq (i := .push arg) (.inr (by omega)), fun arg s habout hlow hroom => ?_⟩
  exact (Steps.completes habout (.push arg hlow hroom)).step_eq

/-- Settles O23: a top to copy and a free cell are all that `PUSH2` asks for. -/
theorem push2SlidesItsLiteralUnderTheTop : Obligations.Push2SlidesItsLiteralUnderTheTop :=
  fun arg _ _ htop hroom => (Completes.push2 arg htop hroom).exec_eq

/-- Settles O24: the canonical form makes the cell just written readable, and the write changes no other cell. -/
theorem popStoresTheTopInMemory : Obligations.PopStoresTheTopInMemory := by
  intro a v s hwf haddr htop hport h0 h1
  have hin : s.memory.inBounds a.toInt = true := by simp [Memory.inBounds, h0, h1]
  exact ⟨s.memory.set a.toInt v, (Completes.popToMemory haddr htop hport hin).exec_eq, rfl,
    Memory.read_set_same hwf hin, fun b hb => Memory.read_set_other hin hb⟩

/-- Settles O25: the port is compared before any bounds check. -/
theorem popWritesTheOutputPort : Obligations.PopWritesTheOutputPort :=
  fun _ _ haddr htop => (Completes.popToPort haddr htop).exec_eq

/-- Settles O26: a top to copy and a free cell are all that `DUP` asks for. -/
theorem dupCopiesTheTop : Obligations.DupCopiesTheTop :=
  fun _ _ htop hroom => (Completes.dup htop hroom).exec_eq

/-- Settles O28: the empty stack is the case `sp = -1` of `execAll_push`. -/
theorem consecutivePushesFillTheStack : Obligations.ConsecutivePushesFillTheStack := by
  intro args s hempty hroom
  obtain ⟨t, hrun, hsp, hcells, hothers⟩ := execAll_push args s (by omega) (by omega)
  refine ⟨t, hrun, by omega, fun i hi => ?_, fun i hi => hothers i (by omega)⟩
  simpa [hempty] using hcells i hi

/-- Settles O29: an address other than the port's that names a cell completes the `LOAD`. -/
theorem loadReadsMemory : Obligations.LoadReadsMemory :=
  fun _ _ _ haddr hport hcell => (Completes.loadFromMemory haddr hport hcell).exec_eq

/-- Settles O30: the port is compared before any bounds check. -/
theorem loadReadsTheInputPort : Obligations.LoadReadsTheInputPort :=
  fun _ _ _ haddr hqueue => (Completes.loadFromPort haddr hqueue).exec_eq

/-- Settles O31: an address out of range can be neither read nor written, and is already latched. -/
theorem addressOutOfRangeRaisesMemoryBounds : Obligations.AddressOutOfRangeRaisesMemoryBounds := by
  intro a v s hrange
  have hout : s.memory.inBounds a.toInt = false := by
    simp only [Memory.inBounds, Bool.and_eq_false_iff, decide_eq_false_iff_not]
    omega
  have hread : s.memory.read a.toInt = none := by simp [Memory.read, hout]
  exact ⟨fun haddr hport => (Raises.loadOutOfRange haddr hport hread).exec_eq,
    fun haddr htop hport => (Raises.popOutOfRange haddr htop hport hout).exec_eq⟩

/-- Settles O39: `PUSH`, `PUSH2` and `DUP` begin with the move of `sp` that a full stack refuses. -/
theorem fullStackRaisesStackBounds : Obligations.FullStackRaisesStackBounds := by
  intro i s _ hfull hi
  have hblocked : s.sp < -2 ∨ s.cap ≤ s.sp + 1 := .inr (by omega)
  apply Blocked.exec_eq
  cases i with
  | push | push2 | dup => exact hblocked
  | _ => cases hi

/-- Settles O40: `sp` moves to 0, and the cell below it, which holds no old top, cannot be read. -/
theorem emptyStackLeavesPush2AndDupHalfDone : Obligations.EmptyStackLeavesPush2AndDupHalfDone := by
  intro i s hi hempty hcap
  have htop : s.tos = none := readStack_eq_none (.inl (by omega))
  have hlacks : LacksCell i s := by obtain rfl | ⟨arg, rfl⟩ := hi <;> exact htop
  rw [hlacks.exec_eq (by omega) (by omega), State.grown, hempty]
  rfl

/-- Settles O38: below its minimum depth an instruction's first read, or for `DROP` its move of `sp`, is refused. -/
theorem shallowStackRaisesStackBounds : Obligations.ShallowStackRaisesStackBounds := by
  intro i s hs hshallow hi
  apply Blocked.exec_eq
  obtain ⟨hlow, hhigh⟩ := hs
  cases i with
  | halt | jump | number | string | buffer => simp [minDepth] at hshallow; omega
  | push | push2 | dup => cases hi
  | drop => exact .inl (by simp [minDepth] at hshallow; omega)
  | jz | load | inc => exact readStack_eq_none (.inl (by simp [minDepth] at hshallow; omega))
  | pop => exact readStack_eq_none (.inl (by simp [minDepth] at hshallow; omega))
  | add | div | mod => exact .inl (readStack_eq_none (.inl (by simp [minDepth] at hshallow; omega)))

end

section
/-! What each dispatch arm leaves unchanged (R37, R38, R82). -/

namespace Sys2Proof.Machine

/-- What the dispatch of `i` on `s` leaves unchanged in `t`, completed or raised. -/
structure Frame (i : Instr) (s t : State) : Prop where
  parameters : SameParameters s t
  ir : t.ir = s.ir
  instrCount : t.instrCount = s.instrCount
  pc : latchesPc i = false → t.pc = s.pc
  dataAddress : i ≠ .pop → i ≠ .load → t.dataAddress = s.dataAddress
  memory : i ≠ .pop → t.memory = s.memory
  inputQueue : i ≠ .load ∨ s.tos ≠ some 0#32 → t.inputQueue = s.inputQueue
  outputSeq : i ≠ .pop ∨ s.sos ≠ some 1#32 → t.outputSeq = s.outputSeq
  stack : ∀ j : Int, j ∉ writtenCells i s → readStack t j = readStack s j

/-! ## Completed arms -/

theorem Completes.pc_eq {i : Instr} {s t : State} (h : Completes i s t) (hi : latchesPc i = false) :
    t.pc = s.pc := by
  cases h with
  | jump | jzTaken => cases hi
  | _ => rfl

theorem Completes.dataAddress_eq {i : Instr} {s t : State} (h : Completes i s t) (hpop : i ≠ .pop)
    (hload : i ≠ .load) : t.dataAddress = s.dataAddress := by
  cases h with
  | popToPort | popToMemory => exact absurd rfl hpop
  | loadFromPort | loadFromMemory => exact absurd rfl hload
  | _ => rfl

theorem Completes.memory_eq {i : Instr} {s t : State} (h : Completes i s t) (hpop : i ≠ .pop) :
    t.memory = s.memory := by
  cases h with
  | popToMemory => exact absurd rfl hpop
  | _ => rfl

theorem Completes.inputQueue_eq {i : Instr} {s t : State} (h : Completes i s t)
    (hport : i ≠ .load ∨ s.tos ≠ some 0#32) : t.inputQueue = s.inputQueue := by
  cases h with
  | loadFromPort haddr => exact hport.elim (absurd rfl) (absurd haddr)
  | _ => rfl

theorem Completes.outputSeq_eq {i : Instr} {s t : State} (h : Completes i s t)
    (hport : i ≠ .pop ∨ s.sos ≠ some 1#32) : t.outputSeq = s.outputSeq := by
  cases h with
  | popToPort haddr => exact hport.elim (absurd rfl) (absurd haddr)
  | _ => rfl

theorem Completes.readStack_eq {i : Instr} {s t : State} (h : Completes i s t) {j : Int}
    (hj : j ∉ writtenCells i s) : readStack t j = readStack s j := by
  cases h with
  | push _ hlow =>
    exact readStack_setStack_other (s := s.grown) (by omega) (List.ne_of_not_mem_cons hj)
  | dup htop =>
    have hbounds := readStack_bounds htop
    exact readStack_setStack_other (s := s.grown) (by omega) (List.ne_of_not_mem_cons hj)
  | push2 _ htop =>
    have hbounds := readStack_bounds htop
    have hsp : j ≠ s.sp := List.ne_of_not_mem_cons (List.not_mem_of_not_mem_cons hj)
    rw [readStack_setStack_other hbounds.1 hsp]
    exact readStack_setStack_other (s := { s.grown with tick := s.tick + 2 }) (by omega) (List.ne_of_not_mem_cons hj)
  | loadFromPort haddr =>
    exact readStack_setStack_other (s := { s.latched 0#32 with inputQueue := _ }) (readStack_bounds haddr).1
      (List.ne_of_not_mem_cons hj)
  | @loadFromMemory _ a _ haddr =>
    exact readStack_setStack_other (s := s.latched a) (readStack_bounds haddr).1 (List.ne_of_not_mem_cons hj)
  | inc htop => exact readStack_setStack_other (readStack_bounds htop).1 (List.ne_of_not_mem_cons hj)
  | alu hop hsecond =>
    have hwritten : writtenCells i s = [s.sp - 1] := by
      obtain rfl | rfl | rfl := eq_add_or_div_or_mod hop <;> rfl
    rw [hwritten] at hj
    exact readStack_setStack_other (readStack_bounds hsecond).1 (List.ne_of_not_mem_cons hj)
  | _ => rfl

theorem Completes.ir_eq {i : Instr} {s t : State} (h : Completes i s t) : t.ir = s.ir := by
  cases h <;> rfl

theorem Completes.frame {i : Instr} {s t : State} (h : Completes i s t) : Frame i s t where
  parameters := h.sameParameters
  ir := h.ir_eq
  instrCount := h.instrCount_eq
  pc := h.pc_eq
  dataAddress := h.dataAddress_eq
  memory := h.memory_eq
  inputQueue := h.inputQueue_eq
  outputSeq := h.outputSeq_eq
  stack _ := h.readStack_eq

/-! ## Arms that raise -/

/-- A raise leaves the state the arm began with, or one whose `sp` or `data_address` has moved. -/
theorem Raises.state_cases {i : Instr} {s u : State} {c : StopCause} (h : Raises i s c u) :
    u = s ∨ (needsFreeCell i = true ∧ u = s.grown) ∨ ((i = .pop ∨ i = .load) ∧ ∃ a, u = s.latched a) := by
  cases h with
  | halt | declarative | blocked => exact .inl rfl
  | halfDone _ _ hlacks =>
    refine .inr (.inl ⟨?_, rfl⟩)
    cases i with
    | push | push2 | dup => rfl
    | _ => exact hlacks.elim
  | popNoTop | popOutOfRange => exact .inr (.inr ⟨.inl rfl, _, rfl⟩)
  | loadOutOfRange | inputExhausted => exact .inr (.inr ⟨.inr rfl, _, rfl⟩)

theorem frame_refl (i : Instr) (s : State) : Frame i s s where
  parameters := ⟨rfl, rfl, rfl, rfl⟩
  ir := rfl
  instrCount := rfl
  pc _ := rfl
  dataAddress _ _ := rfl
  memory _ := rfl
  inputQueue _ := rfl
  outputSeq _ := rfl
  stack _ _ := rfl

theorem Frame.stop {i : Instr} {s u : State} (h : Frame i s u) (c : StopCause) : Frame i s (u.stop c) :=
  ⟨h.parameters, h.ir, h.instrCount, h.pc, h.dataAddress, h.memory, h.inputQueue, h.outputSeq, h.stack⟩

theorem Raises.frame {i : Instr} {s u : State} {c : StopCause} (h : Raises i s c u) : Frame i s u := by
  have hrefl := frame_refl i s
  obtain rfl | ⟨-, rfl⟩ | ⟨hi, a, rfl⟩ := h.state_cases
  · exact hrefl
  · exact { hrefl with }
  · exact { hrefl with dataAddress := fun hpop hload => absurd hi (not_or.mpr ⟨hpop, hload⟩) }

theorem Ends.frame {i : Instr} {s t : State} (h : Ends i s t) : Frame i s t := by
  obtain hdone | ⟨c, u, hraise, rfl⟩ := h
  · exact hdone.frame
  · exact hraise.frame.stop c

/-! ## The stack pointer -/

theorem Completes.sp_eq {i : Instr} {s t : State} (h : Completes i s t) : t.sp = s.sp + netSp i := by
  cases h with
  | jump | jzTaken | jzPassed | loadFromPort | loadFromMemory | inc => exact (Int.add_zero _).symm
  | push | push2 | dup | drop | popToPort | popToMemory => rfl
  | alu hop => obtain rfl | rfl | rfl := eq_add_or_div_or_mod hop <;> rfl

theorem Ends.sp_eq_of_load {s t : State} (h : Ends .load s t) : t.sp = s.sp := by
  obtain hdone | ⟨c, u, hraise, rfl⟩ := h
  · exact hdone.sp_eq.trans (Int.add_zero _)
  · obtain rfl | ⟨hi, -⟩ | ⟨-, a, rfl⟩ := hraise.state_cases
    · rfl
    · cases hi
    · rfl

/-! ## The one store -/

/-- All `POP` does to data memory. -/
theorem Ends.memory_of_pop {s t : State} (h : Ends .pop s t) : t.memory = s.memory ∨
    ∃ a v, s.sos = some a ∧ a ≠ 1#32 ∧ s.memory.inBounds a.toInt = true ∧
      t.memory = s.memory.set a.toInt v := by
  obtain hdone | ⟨c, u, hraise, rfl⟩ := h
  · cases hdone with
    | popToPort => exact .inl rfl
    | popToMemory haddr _ hport hin => exact .inr ⟨_, _, haddr, hport, hin, rfl⟩
    | alu hop => cases hop
  · exact .inl hraise.memory_eq

end Sys2Proof.Machine

open Sys2Proof Sys2Proof.Machine

/-- Settles O46: the frame of an arm that is neither of the two with a memory access. -/
theorem frameOfInstructionsWithoutMemory : Obligations.FrameOfInstructionsWithoutMemory := by
  intro i s t hpop hload hexec
  have hframe := (exec_eq_next_iff.mp hexec).frame
  exact ⟨fun a => by rw [hframe.memory hpop], hframe.inputQueue (.inl hload), hframe.outputSeq (.inl hpop),
    hframe.dataAddress hpop hload, hframe.ir, hframe.instrCount, hframe.parameters, hframe.pc⟩

/-- Settles O47: the frame of `LOAD`, whose only written cell is the top. -/
theorem frameOfLoad : Obligations.FrameOfLoad := by
  intro s t hexec
  have hends := exec_eq_next_iff.mp hexec
  have hframe := hends.frame
  exact ⟨fun j hj => hframe.stack j (mt List.mem_singleton.mp hj), hends.sp_eq_of_load,
    fun a => by rw [hframe.memory nofun], hframe.outputSeq (.inl nofun), fun htop => hframe.inputQueue (.inr htop),
    hframe.pc rfl, hframe.ir, hframe.instrCount, hframe.parameters⟩

/-- Settles O48: data memory changes only by the write of the cell that the second operand names. -/
theorem frameOfPop : Obligations.FrameOfPop := by
  intro s t hexec
  have hends := exec_eq_next_iff.mp hexec
  have hframe := hends.frame
  refine ⟨fun j => hframe.stack j List.not_mem_nil, fun a ha b hb => ?cells, fun hport a => ?port,
    fun hport => hframe.outputSeq (.inr hport), hframe.inputQueue (.inl nofun), hframe.pc rfl, hframe.ir,
    hframe.instrCount, hframe.parameters⟩
  case cells =>
    obtain hsame | ⟨a', v, ha', -, hin, hset⟩ := hends.memory_of_pop
    · rw [hsame]
    · cases ha.symm.trans ha'
      rw [hset, Memory.read_set_other hin hb]
  case port =>
    obtain hsame | ⟨a', v, ha', hne, -, -⟩ := hends.memory_of_pop
    · rw [hsame]
    · rw [ha'] at hport
      simp [hne] at hport

/-- Settles O49: the stack part of the frame. -/
theorem cellsNotWrittenKeepTheirValues : Obligations.CellsNotWrittenKeepTheirValues :=
  fun _ _ _ j hexec hj => (exec_eq_next_iff.mp hexec).frame.stack j hj

/-- Settles O50: an arm that raises leaves a stopped core. -/
theorem stackPointerMovesByTheTable : Obligations.StackPointerMovesByTheTable := by
  intro i s t _ hexec hrun
  obtain hdone | ⟨c, u, -, rfl⟩ := exec_eq_next_iff.mp hexec
  · exact hdone.sp_eq
  · cases hrun

end

section
/-! Which stop comes from which instruction (R100 to R105), and what a whole cycle comes to. -/

namespace Sys2Proof.Machine

/-! ## Stack faults -/

theorem readStack_ne_none {s : State} {i : Int} (h0 : 0 ≤ i) (h1 : i < s.cap) : readStack s i ≠ none := by
  obtain ⟨v, hv⟩ := (readStack_isSome_iff s i).mpr ⟨h0, h1⟩
  rw [hv]
  exact Option.some_ne_none v

/-- The minimum depth of R82 and the free cell an instruction needs. -/
def StackReady (i : Instr) (s : State) : Prop :=
  s.SpLegal ∧ (minDepth i : Int) ≤ s.sp + 1 ∧ (needsFreeCell i = true → s.sp + 1 < s.cap)

theorem StackReady.not_blocked {i : Instr} {s : State} (h : StackReady i s) : ¬ Blocked i s := by
  obtain ⟨⟨hlow, hhigh⟩, hdepth, hroom⟩ := h
  unfold Blocked
  cases i with
  | halt | jump | number | string | buffer => exact id
  | push | push2 | dup =>
    have hroom' := hroom rfl
    omega
  | drop =>
    simp only [minDepth] at hdepth
    omega
  | jz | load | inc =>
    simp only [minDepth] at hdepth
    exact readStack_ne_none (by omega) hhigh
  | pop =>
    simp only [minDepth] at hdepth
    exact readStack_ne_none (by omega) (by omega)
  | add | div | mod =>
    simp only [minDepth] at hdepth
    exact not_or.mpr ⟨readStack_ne_none (by omega) (by omega), readStack_ne_none (by omega) hhigh⟩

theorem StackReady.not_lacksCell {i : Instr} {s : State} (h : StackReady i s) : ¬ LacksCell i s := by
  obtain ⟨⟨hlow, hhigh⟩, hdepth, -⟩ := h
  unfold LacksCell
  cases i with
  | push => simp only; omega
  | push2 | dup =>
    simp only [minDepth] at hdepth
    exact readStack_ne_none (by omega) hhigh
  | _ => exact id

theorem StackReady.not_raises {i : Instr} {s u : State} (h : StackReady i s) :
    ¬ Raises i s (.runtimeFault .stackBounds) u := by
  intro hraise
  cases hraise with
  | blocked hblocked => exact h.not_blocked hblocked
  | halfDone _ _ hlacks => exact h.not_lacksCell hlacks
  | popNoTop _ htop =>
    obtain ⟨⟨-, hhigh⟩, hdepth, -⟩ := h
    simp only [minDepth] at hdepth
    exact readStack_ne_none (by omega) hhigh htop

/-! ## The other causes -/

theorem Raises.halt_inv {i : Instr} {s u : State} (h : Raises i s .halt u) : i = .halt ∧ u = s := by
  cases h
  exact ⟨rfl, rfl⟩

theorem Raises.inputExhausted_inv {i : Instr} {s u : State} (h : Raises i s .inputExhausted u) :
    i = .load ∧ s.tos = some 0#32 ∧ s.inputQueue = [] ∧ u = s.latched 0#32 := by
  cases h with
  | inputExhausted haddr hqueue => exact ⟨rfl, haddr, hqueue, rfl⟩

theorem Raises.isDeclarative {i : Instr} {s u : State} (h : Raises i s .decodeFault u) :
    isDeclarative i = true := by
  cases h with
  | declarative _ hdecl => exact hdecl

/-! ## Steps that stop, and steps that complete -/

theorem mem_code_of_fetchWord {s : State} {w : CodeWord} (h : fetchWord s = some w) : w ∈ s.code :=
  List.mem_of_getElem? (fetchWord_eq_some_iff.mp h).2

/-- All a step that stops the core can be. -/
theorem Steps.stop_cases {s t : State} {c : StopCause} (h : Steps s t) (hstop : t.runState = .stopped c) :
    (c = .tickLimitExceeded ∧ s.tickLimit ≤ s.tick) ∨ c = .runtimeFault .pcBounds ∨
      (c = .decodeFault ∧ ∃ w ∈ s.code, ∃ e, decode w = .error e) ∨
      ∃ i u, AboutToRun i s ∧ Raises i (s.fetched (encode i)) c u ∧ t = u.stop c := by
  cases h with
  | ceiling _ hlimit =>
    cases hstop
    exact .inl ⟨rfl, hlimit⟩
  | noWord =>
    cases hstop
    exact .inr (.inl rfl)
  | undecodable _ _ hfetch herror =>
    cases hstop
    exact .inr (.inr (.inl ⟨rfl, _, mem_code_of_fetchWord hfetch, _, herror⟩))
  | completes habout hdone =>
    have hrun := hdone.runState_eq.trans habout.running
    cases hrun.symm.trans hstop
  | raises habout hraise =>
    cases hstop
    exact .inr (.inr (.inr ⟨_, _, habout, hraise, rfl⟩))

/-- A step has one outcome. -/
theorem Steps.unique {s t t' : State} (h : Steps s t) (h' : Steps s t') : t = t' := by
  cases h.step_eq.symm.trans h'.step_eq
  rfl

/-- A step of an instruction about to run that leaves the core running is its completed cycle. -/
theorem Steps.completes_inv {i : Instr} {s t : State} (h : Steps s t) (habout : AboutToRun i s)
    (hrun : t.runState = .running) : ∃ u, Completes i (s.fetched (encode i)) u ∧ t = u.counted := by
  obtain ⟨u, hdone | ⟨c, u', hraise, rfl⟩⟩ := exists_ends i (s.fetched (encode i))
  · exact ⟨u, hdone, h.unique (.completes habout hdone)⟩
  · rw [h.unique (.raises habout hraise)] at hrun
    cases hrun

/-! ## The tick table -/

theorem Completes.tick_add_two {i : Instr} {s t : State} (h : Completes i s t) :
    t.tick + 2 = s.tick + totalTicks i := by
  cases h with
  | alu hop => obtain rfl | rfl | rfl := eq_add_or_div_or_mod hop <;> rfl
  | _ => rfl

end Sys2Proof.Machine

open Sys2Proof Sys2Proof.Machine Sys2Proof.Encoding

/-- Settles O41: with the depth and the room it needs, none of an arm's stack checks fails. -/
theorem minimumDepthSuffices : Obligations.MinimumDepthSuffices := by
  intro i s t hrun hlegal hdepth hroom hexec hstop
  obtain hdone | ⟨c, u, hraise, rfl⟩ := exec_eq_next_iff.mp hexec
  · cases (hdone.runState_eq.trans hrun).symm.trans hstop
  · cases hstop
    exact StackReady.not_raises ⟨hlegal, hdepth, hroom⟩ hraise

/-- Settles O42: a stop with the cause Halt is a raise, and only the arm of `HALT` raises it. -/
theorem haltIsRaisedByHaltAlone : Obligations.HaltIsRaisedByHaltAlone := by
  intro s t _ hexec
  have hstep := step_eq_next_iff.mp hexec
  have hinv (hstop : t.runState = .stopped .halt) :
      AboutToRun .halt s ∧ t = (s.fetched (encode .halt)).stop .halt := by
    obtain ⟨⟨⟩, -⟩ | ⟨⟨⟩⟩ | ⟨⟨⟩, -⟩ | ⟨i, u, habout, hraise, rfl⟩ := hstep.stop_cases hstop
    obtain ⟨rfl, rfl⟩ := hraise.halt_inv
    exact ⟨habout, rfl⟩
  refine ⟨⟨fun hstop => (hinv hstop).1, fun habout => ?_⟩, fun hstop => (hinv hstop).2⟩
  rw [hstep.unique (.raises habout (.halt _))]
  rfl

/-- Settles O43: a stop with that cause is a raise, and only a `LOAD` at the port with an empty queue raises it. -/
theorem inputExhaustedIsRaisedByLoadAlone : Obligations.InputExhaustedIsRaisedByLoadAlone := by
  intro s t _ hexec
  have hstep := step_eq_next_iff.mp hexec
  have hinv (hstop : t.runState = .stopped .inputExhausted) :
      (AboutToRun .load s ∧ s.tos = some 0#32 ∧ s.inputQueue = []) ∧
        t = ((s.fetched (encode .load)).latched 0#32).stop .inputExhausted := by
    obtain ⟨⟨⟩, -⟩ | ⟨⟨⟩⟩ | ⟨⟨⟩, -⟩ | ⟨i, u, habout, hraise, rfl⟩ := hstep.stop_cases hstop
    obtain ⟨rfl, haddr, hqueue, rfl⟩ := hraise.inputExhausted_inv
    exact ⟨⟨habout, haddr, hqueue⟩, rfl⟩
  refine ⟨⟨fun hstop => (hinv hstop).1, fun ⟨habout, haddr, hqueue⟩ => ?_⟩, fun hstop => (hinv hstop).2⟩
  rw [hstep.unique (.raises habout (.inputExhausted haddr hqueue))]
  rfl

/-- Settles O44: the codec's own error at dispatch cannot come from checked code. -/
theorem decodeFaultInCheckedCodeIsDeclarative : Obligations.DecodeFaultInCheckedCodeIsDeclarative := by
  intro s t hchecked _ hexec
  have hstep := step_eq_next_iff.mp hexec
  constructor
  · intro hstop
    obtain ⟨⟨⟩, -⟩ | ⟨⟨⟩⟩ | ⟨-, w, hw, e, herror⟩ | ⟨i, u, habout, hraise, -⟩ := hstep.stop_cases hstop
    · obtain ⟨i, hi⟩ := hchecked w hw
      cases hi.symm.trans herror
    · exact ⟨i, hraise.isDeclarative, habout⟩
  · rintro ⟨i, hdecl, habout⟩
    rw [hstep.unique (.raises habout (.declarative _ hdecl))]
    rfl

/-- Settles O45: no way of raising has that cause. -/
theorem wrongOpcodeArmsAreUnreachable : Obligations.WrongOpcodeArmsAreUnreachable := by
  intro s t _ hexec hstop
  obtain ⟨⟨⟩, -⟩ | ⟨⟨⟩⟩ | ⟨⟨⟩, -⟩ | ⟨i, u, -, hraise, -⟩ := (step_eq_next_iff.mp hexec).stop_cases hstop
  cases hraise

/-- Settles O11: below the ceiling, no way for a step to stop the core has that cause. -/
theorem tickCeilingStopsExactlyAtABoundary : Obligations.TickCeilingStopsExactlyAtABoundary := by
  intro s hrun
  refine ⟨fun hlimit => (Steps.ceiling hrun hlimit).step_eq, fun t hexec hstop => ?_⟩
  obtain ⟨-, hlimit⟩ | ⟨⟨⟩⟩ | ⟨⟨⟩, -⟩ | ⟨i, u, -, hraise, -⟩ := (step_eq_next_iff.mp hexec).stop_cases hstop
  · exact hlimit
  · cases hraise

/-- Settles O51: the inner ticks, with the fetch tick and the trailing tick. -/
theorem completedCycleCostsItsTableTicks : Obligations.CompletedCycleCostsItsTableTicks := by
  intro i s t habout hexec hrun
  obtain ⟨u, hdone, rfl⟩ := (step_eq_next_iff.mp hexec).completes_inv habout hrun
  have htick : u.tick + 2 = s.tick + 1 + totalTicks i := hdone.tick_add_two
  exact ⟨show u.tick + 1 = s.tick + totalTicks i by omega, congrArg (· + 1) hdone.instrCount_eq⟩

/-- Settles O53: no other case of a step writes the output. -/
theorem outputChangesOnlyByPopToThePort : Obligations.OutputChangesOnlyByPopToThePort := by
  intro s t hexec hchange
  cases step_eq_next_iff.mp hexec with
  | ceiling | noWord | undecodable => exact absurd rfl hchange
  | raises _ hraise => cases hraise <;> exact absurd rfl hchange
  | completes habout hdone =>
    cases hdone with
    | popToPort haddr htop => exact ⟨habout, haddr, _, htop, rfl⟩
    | _ => exact absurd rfl hchange

/-- Settles O54: no other case of a step takes from the queue. -/
theorem inputChangesOnlyByLoadFromThePort : Obligations.InputChangesOnlyByLoadFromThePort := by
  intro s t hexec hchange
  cases step_eq_next_iff.mp hexec with
  | ceiling | noWord | undecodable => exact absurd rfl hchange
  | raises _ hraise => cases hraise <;> exact absurd rfl hchange
  | completes habout hdone =>
    cases hdone with
    | loadFromPort haddr hqueue => exact ⟨habout, haddr, _, hqueue⟩
    | _ => exact absurd rfl hchange

/-- Settles O8: a word that decodes is the word of its instruction, so that instruction is about to run. -/
theorem stepRunsTheDecodedInstruction : Obligations.StepRunsTheDecodedInstruction := by
  intro s t w i hrun htick hpc hword hdecode hexec
  obtain rfl : encode i = w := encode_of_decode_eq_ok hdecode
  have habout : AboutToRun i s := ⟨hrun, htick, hpc, hword⟩
  refine ⟨habout.step_of_exec_running hexec, fun hstop => ?_⟩
  cases hc : t.runState with
  | running => exact absurd hc hstop
  | stopped c => rw [habout.step_eq hexec, finishCycle_stopped hc]

/-- Settles O9: the word is fetched before it is decoded. -/
theorem undecodableWordRaisesDecodeFault : Obligations.UndecodableWordRaisesDecodeFault :=
  fun _ _ _ hrun htick hpc hword herror =>
    (Steps.undecodable hrun htick (fetchWord_eq_some_iff.mpr ⟨hpc, hword⟩) herror).step_eq

/-- Settles O10: outside `code` the fetch finds no word. -/
theorem fetchOutsideCodeRaisesPcBounds : Obligations.FetchOutsideCodeRaisesPcBounds :=
  fun _ hrun htick hpc => step_of_fetchWord_eq_none hrun htick (fetchWord_eq_none hpc)

/-- Settles O12: the run controller tests `run_state` first. -/
theorem stoppedCoreHasNoStep : Obligations.StoppedCoreHasNoStep := fun _ _ => step_of_stopped

/-- Settles O56: each sequence is two completed cycles, the first of which puts the port's address where the second
reads it. -/
theorem portSequencesTransferOneValue : Obligations.PortSequencesTransferOneValue := by
  constructor
  · intro s u c rest hpush hlow hroom hqueue hexec hload
    have hfirst : Steps s _ := .completes hpush (.push 0#32 hlow hroom)
    obtain rfl := (step_eq_next_iff.mp hexec).unique hfirst
    have haddr : readStack _ (s.sp + 1) = some 0#32 :=
      readStack_setStack_same (s := s.grown) (show 0 ≤ s.sp + 1 by omega) hroom
    refine ⟨_, (Steps.completes hload (.loadFromPort haddr hqueue)).step_eq, rfl, ?_, rfl, rfl, rfl, hpush.running⟩
    exact readStack_setStack_same (s := s.grown.setStack _ _) (show 0 ≤ s.sp + 1 by omega) (by simpa using hroom)
  · intro s u v hpush2 htop hroom hexec hpop
    have hbounds := readStack_bounds htop
    have hfirst : Steps s _ := .completes hpush2 (.push2 1#32 htop hroom)
    obtain rfl := (step_eq_next_iff.mp hexec).unique hfirst
    have haddr : readStack ((s.grown.setStack (s.sp + 1) v).setStack s.sp 1#32) (s.sp + 1 - 1) = some 1#32 := by
      rw [Int.add_sub_cancel]
      exact readStack_setStack_same hbounds.1 (by simpa using hbounds.2)
    have hvalue : readStack ((s.grown.setStack (s.sp + 1) v).setStack s.sp 1#32) (s.sp + 1) = some v := by
      rw [readStack_setStack_other hbounds.1 (by omega)]
      exact readStack_setStack_same (s := s.grown) (show 0 ≤ s.sp + 1 by omega) hroom
    refine ⟨_, (Steps.completes hpop (.popToPort haddr hvalue)).step_eq, ?_, rfl, rfl, rfl, hpush2.running⟩
    show s.sp + 1 - 2 = s.sp - 1
    omega

end

section
/-! The record form of the codec (R46, R52 to R54). -/

namespace Sys2Proof.Encoding

open Sys2Proof Sys2Proof.Machine

theorem opcodeOfName_name (o : Opcode) : opcodeOfName o.name = some o := by
  cases o <;> decide

theorem name_of_opcodeOfName {name : String} {o : Opcode} (h : opcodeOfName name = some o) : name = o.name := by
  have hbeq : (o.name == name) = true := List.find?_some (p := fun o : Opcode => o.name == name) h
  exact (beq_iff_eq.mp hbeq).symm

theorem decodeRecord_name (o : Opcode) (arg : Option Word) : decodeRecord o.name arg = decodeOpcode o arg := by
  rw [decodeRecord, opcodeOfName_name]

theorem decodeOpcode_encodeRecord (i : Instr) : decodeOpcode (encodeRecord i).1 (encodeRecord i).2 = .ok i := by
  cases i <;> rfl

theorem decodeRecord_encodeRecord (i : Instr) :
    decodeRecord (encodeRecord i).1.name (encodeRecord i).2 = .ok i := by
  rw [decodeRecord_name, decodeOpcode_encodeRecord]

theorem decodeRecord_of_unknown {name : String} (h : ∀ o : Opcode, name ≠ o.name) (arg : Option Word) :
    decodeRecord name arg = .error .unrecognised := by
  have hnone : opcodeOfName name = none :=
    List.find?_eq_none.mpr fun o _ ho => h o (beq_iff_eq.mp ho).symm
  rw [decodeRecord, hnone]

theorem needArg_eq_ok_iff {arg : Option Word} {mk : Word → Instr} {i : Instr} :
    needArg arg mk = .ok i ↔ ∃ a, arg = some a ∧ mk a = i := by
  cases arg <;> simp [needArg]

theorem refuseArg_eq_ok_iff {arg : Option Word} {i j : Instr} :
    refuseArg arg i = .ok j ↔ arg = none ∧ i = j := by
  cases arg <;> simp [refuseArg]

/-- An executable instruction comes from its own opcode and argument. -/
theorem encodeRecord_of_decodeOpcode {o : Opcode} {arg : Option Word} {i : Instr} (h : decodeOpcode o arg = .ok i)
    (hexec : isDeclarative i = false) : encodeRecord i = (o, arg) := by
  cases o with
  | JUMP | JZ | PUSH | PUSH2 =>
    obtain ⟨a, rfl, rfl⟩ := needArg_eq_ok_iff.mp h
    rfl
  | HALT | POP | DUP | DROP | LOAD | INC | ADD | DIV | MOD =>
    obtain ⟨rfl, rfl⟩ := refuseArg_eq_ok_iff.mp h
    rfl
  | NUMBER | STRING | BUFFER =>
    cases h
    cases hexec

end Sys2Proof.Encoding

open Sys2Proof Sys2Proof.Machine Sys2Proof.Encoding

/-- Settles O6: the mnemonic text names its opcode, whose row gives the instruction. -/
theorem recordCodecRoundTrip : Obligations.RecordCodecRoundTrip := decodeRecord_encodeRecord

/-- Settles O7: a mnemonic text names one opcode at most, and the arity check is the opcode's. -/
theorem recordArityAndMnemonicFaults : Obligations.RecordArityAndMnemonicFaults := by
  refine ⟨fun name arg h => decodeRecord_of_unknown h arg, fun name hname => ?needed, fun name hname a => ?refused,
    fun name arg i hdecode hexec => ?own⟩
  case needed =>
    have hnames : name ∈ [Opcode.JUMP, .JZ, .PUSH, .PUSH2].map Opcode.name := hname
    obtain ⟨o, ho, rfl⟩ := List.mem_map.mp hnames
    rw [decodeRecord_name]
    fin_cases ho <;> rfl
  case refused =>
    have hnames : name ∈ [Opcode.HALT, .POP, .DUP, .DROP, .LOAD, .INC, .ADD, .DIV, .MOD].map Opcode.name := hname
    obtain ⟨o, ho, rfl⟩ := List.mem_map.mp hnames
    rw [decodeRecord_name]
    fin_cases ho <;> rfl
  case own =>
    unfold decodeRecord at hdecode
    cases ho : opcodeOfName name with
    | none => simp [ho] at hdecode
    | some o =>
      rw [ho] at hdecode
      rw [encodeRecord_of_decodeOpcode hdecode hexec]
      exact ⟨name_of_opcodeOfName ho, rfl⟩

end

section
/-! Reset, load and the result (R29, R119 to R127). -/

namespace Sys2Proof.Machine

open Sys2Proof.Encoding

/-! ## Reset -/

theorem inv_resetWith (capacity limit : Nat) {m : Memory} {code : List CodeWord} (queue : List Word)
    (hwf : m.wf = true) (hsize : m.size ≤ maxWord) (hcode : code.length ≤ maxWord) :
    (State.resetWith capacity limit m code queue).Inv := by
  refine ⟨⟨le_rfl, ?_⟩, ⟨hwf, hsize⟩, hcode, ⟨le_rfl, le_rfl⟩, Nat.zero_le _⟩
  simp only [State.resetWith, State.cap, Config.initialSp]
  omega

/-! ## The shape of an image (R47, R122) -/

theorem inCellRange_iff (v : Int) : inCellRange v = true ↔ -2147483648 ≤ v ∧ v ≤ 2147483647 := by
  simp [inCellRange]

theorem inCellRange_toInt (v : Word) : inCellRange v.toInt = true := by
  have hbounds := word_toInt_bounds v
  rw [inCellRange_iff]
  omega

theorem record_wellFormed_iff (r : Record) : r.wellFormed = true ↔
    (∃ n, r.index = .int n) ∧ (∃ name, r.opcode = .text name) ∧
      (r.arg = .missing ∨ ∃ v, r.arg = .int v ∧ -2147483648 ≤ v ∧ v ≤ 2147483647) := by
  obtain ⟨index, opcode, arg⟩ := r
  cases index <;> cases opcode <;> cases arg <;>
    simp [Record.wellFormed, Record.indexOk, Record.opcodeOk, Record.argOk, inCellRange_iff]

theorem toInt_ofInt_of_inCellRange {v : Int} (h : inCellRange v = true) : (BitVec.ofInt 32 v).toInt = v := by
  obtain ⟨h0, h1⟩ := (inCellRange_iff v).mp h
  exact wrap32_toInt_of_mem h0 (by omega)

/-- The image is a length, that many cells, and records, all well formed. -/
structure HasShape (img : Image) (data : List Int) (records : List Record) : Prop where
  image : img = .cell (data.length : Int) :: (data.map Element.cell ++ records.map Element.record)
  data_length : data.length ≤ maxWord
  records_length : records.length ≤ maxWord
  data_ok : ∀ v ∈ data, inCellRange v = true
  records_ok : ∀ r ∈ records, r.wellFormed = true

theorem exists_cells_of_dataOk {es : List Element} (h : es.all Element.dataOk = true) :
    ∃ data : List Int, es = data.map Element.cell ∧ ∀ v ∈ data, inCellRange v = true := by
  induction es with
  | nil => exact ⟨[], rfl, by simp⟩
  | cons e rest ih =>
    rw [List.all_cons, Bool.and_eq_true] at h
    obtain ⟨data, rfl, hdata⟩ := ih h.2
    cases e with
    | cell v => exact ⟨v :: data, rfl, List.forall_mem_cons.mpr ⟨h.1, hdata⟩⟩
    | record r => cases h.1

theorem exists_records_of_codeOk {es : List Element} (h : es.all Element.codeOk = true) :
    ∃ records : List Record, es = records.map Element.record ∧ ∀ r ∈ records, r.wellFormed = true := by
  induction es with
  | nil => exact ⟨[], rfl, by simp⟩
  | cons e rest ih =>
    rw [List.all_cons, Bool.and_eq_true] at h
    obtain ⟨records, rfl, hrecords⟩ := ih h.2
    cases e with
    | cell v => cases h.1
    | record r => exact ⟨r :: records, rfl, List.forall_mem_cons.mpr ⟨h.1, hrecords⟩⟩

theorem HasShape.wellFormed {img : Image} {data : List Int} {records : List Record}
    (h : HasShape img data records) : Image.wellFormed img = true := by
  obtain ⟨rfl, hdata, hrecords, hdataOk, hrecordsOk⟩ := h
  have hlength : (data.length : Int).toNat = (data.map Element.cell).length := by simp
  simp only [Image.wellFormed, hlength, List.take_left, List.drop_left]
  simpa [Element.dataOk, Element.codeOk, Function.comp_def] using
    And.intro ⟨⟨hdata, hdataOk⟩, hrecordsOk⟩ hrecords

theorem exists_hasShape {img : Image} (h : Image.wellFormed img = true) :
    ∃ data records, HasShape img data records := by
  cases img with
  | nil => cases h
  | cons e rest =>
    cases e with
    | record r => cases h
    | cell len =>
      simp only [Image.wellFormed, Bool.and_eq_true, decide_eq_true_eq] at h
      obtain ⟨⟨⟨⟨⟨hpos, hmax⟩, hfits⟩, hdata⟩, hcode⟩, hcount⟩ := h
      obtain ⟨data, htake, hdataOk⟩ := exists_cells_of_dataOk hdata
      obtain ⟨records, hdrop, hrecordsOk⟩ := exists_records_of_codeOk hcode
      have hlength : data.length = len.toNat := by
        rw [← List.length_map (as := data) (f := Element.cell), ← htake, List.length_take]
        omega
      refine ⟨data, records, ?_, by omega, ?_, hdataOk, hrecordsOk⟩
      · rw [← htake, ← hdrop, List.take_append_drop, hlength, Int.toNat_of_nonneg hpos]
      · rwa [hdrop, List.length_map] at hcount

/-! ## The parts of an image, by its shape -/

section

variable {img : Image} {data : List Int} {records : List Record}

theorem HasShape.imageLength_eq (h : HasShape img data records) : imageLength img = data.length := by
  rw [h.image, imageLength, Int.toNat_natCast]

theorem HasShape.imageCells_eq (h : HasShape img data records) : imageCells img = data.map (BitVec.ofInt 32) := by
  have htake : (img.drop 1).take data.length = data.map Element.cell := by
    rw [h.image]
    exact List.take_left' (List.length_map _)
  rw [imageCells, h.imageLength_eq, htake, List.map_map]
  rfl

theorem HasShape.imageCode_eq (h : HasShape img data records) : imageCode img = records.map Element.record := by
  rw [imageCode, h.imageLength_eq, h.image]
  exact List.drop_left' (List.length_map _)

end

/-! ## The load -/

/-- All that makes a core ready. -/
theorem load_eq_ready_iff {capacity limit : Nat} {img : Image} {text : Option (List InputCode)} {s : State} :
    load capacity limit img text = .ready s ↔
      Image.wellFormed img = true ∧ ∃ is, decodeElements (imageCode img) = .ok is ∧
        s = State.resetWith capacity limit (Memory.ofCells (imageCells img)) (is.map encode) (prepareInput text) := by
  unfold load
  cases Image.wellFormed img <;> cases decodeElements (imageCode img) <;> simp [eq_comm]

theorem load_eq_loadFault_iff {capacity limit : Nat} {img : Image} {text : Option (List InputCode)} :
    load capacity limit img text = .loadFault ↔ ¬ Image.wellFormed img = true := by
  unfold load
  cases Image.wellFormed img <;> cases decodeElements (imageCode img) <;> simp

/-- The codec runs over the elements one by one. -/
theorem map_decodeElement_of_decodeElements {es : List Element} {is : List Instr}
    (h : decodeElements es = .ok is) : es.map decodeElement = is.map .ok := by
  induction es generalizing is with
  | nil =>
    cases h
    rfl
  | cons e rest ih =>
    cases he : decodeElement e with
    | error r => simp [decodeElements, he] at h
    | ok i =>
      cases hrest : decodeElements rest with
      | error r => simp [decodeElements, he, hrest] at h
      | ok js =>
        simp only [decodeElements, he, hrest] at h
        cases h
        simp [he, ih hrest]

theorem lookupCell_cellsFrom_head (a : Nat) (v : Word) (vs : List Word) :
    lookupCell (cellsFrom a (v :: vs)) a = v := by
  rw [cellsFrom]
  split
  case isTrue hv => rw [lookupCell_below _ (cellsFrom_canonical (a + 1) vs) (Nat.lt_succ_self a), hv]
  case isFalse => rw [lookupCell, if_pos rfl]

theorem lookupCell_cellsFrom_tail {a b : Nat} (hb : b ≠ a) (v : Word) (vs : List Word) :
    lookupCell (cellsFrom a (v :: vs)) b = lookupCell (cellsFrom (a + 1) vs) b := by
  rw [cellsFrom]
  split
  case isTrue => rfl
  case isFalse => rw [lookupCell, if_neg hb]

theorem lookupCell_cellsFrom (a : Nat) (vs : List Word) (i : Nat) (hi : i < vs.length) :
    lookupCell (cellsFrom a vs) (a + i) = vs[i] := by
  induction vs generalizing a i with
  | nil => cases hi
  | cons v rest ih =>
    cases i with
    | zero => exact lookupCell_cellsFrom_head a v rest
    | succ n =>
      rw [lookupCell_cellsFrom_tail (by omega), show a + (n + 1) = a + 1 + n by omega]
      exact ih (a + 1) n (Nat.lt_of_succ_lt_succ hi)

/-- The loaded memory holds the image's cells, the first at address 0. -/
theorem Memory.read_ofCells (vs : List Word) (i : Nat) (hi : i < vs.length) :
    (Memory.ofCells vs).read i = some vs[i] := by
  have hin : (Memory.ofCells vs).inBounds i = true := by simp [Memory.inBounds, hi]
  have hlookup := lookupCell_cellsFrom 0 vs i hi
  rw [Nat.zero_add] at hlookup
  rw [Memory.read, if_pos hin, Int.toNat_natCast]
  exact congrArg some hlookup

/-! ## Writing an image -/

theorem recordOf_wellFormed (index : Nat) (i : Instr) : (recordOf index i).wellFormed = true := by
  cases i <;> simp [recordOf, encodeRecord, Record.wellFormed, Record.indexOk, Record.opcodeOk, Record.argOk,
    inCellRange_toInt]

theorem decodeRaw_recordOf (index : Nat) (i : Instr) : decodeRaw (recordOf index i) = .ok i := by
  have hrecord := decodeRecord_encodeRecord i
  unfold decodeRaw recordOf
  cases harg : (encodeRecord i).2 with
  | none => rw [harg] at hrecord; exact hrecord
  | some a =>
    rw [harg] at hrecord
    simpa [decodeNamed] using hrecord

theorem decodeElements_recordsFrom (index : Nat) (is : List Instr) :
    decodeElements (recordsFrom index is) = .ok is := by
  induction is generalizing index with
  | nil => rfl
  | cons i rest ih => simp only [recordsFrom, decodeElements, decodeElement, decodeRaw_recordOf, ih]

theorem exists_records_eq_recordsFrom (index : Nat) (is : List Instr) :
    ∃ records : List Record, recordsFrom index is = records.map Element.record ∧ records.length = is.length ∧
      ∀ r ∈ records, r.wellFormed = true := by
  induction is generalizing index with
  | nil => exact ⟨[], rfl, rfl, by simp⟩
  | cons i rest ih =>
    obtain ⟨records, hmap, hlength, hok⟩ := ih (index + 1)
    exact ⟨recordOf index i :: records, congrArg _ hmap, congrArg (· + 1) hlength,
      List.forall_mem_cons.mpr ⟨recordOf_wellFormed index i, hok⟩⟩

theorem map_ofInt_toInt (cells : List Word) : (cells.map BitVec.toInt).map (BitVec.ofInt 32) = cells := by
  simp [Function.comp_def]

end Sys2Proof.Machine

open Sys2Proof Sys2Proof.Machine Sys2Proof.Encoding

/-- Settles O13: each register by its definition; the cells are `capacity` copies of the sentinel. -/
theorem resetHoldsTheSpecValues : Obligations.ResetHoldsTheSpecValues := by
  rintro capacity limit m code queue s rfl
  refine ⟨List.length_replicate, fun i h0 h1 => ?_, rfl, rfl, rfl, rfl, rfl, rfl, rfl, rfl, rfl, rfl, rfl, rfl⟩
  have hindex : i.toNat < capacity := by omega
  rw [readStack, if_neg (Int.not_lt.mpr h0)]
  exact List.getElem?_replicate_of_lt hindex

/-- Settles O14: a reset core meets the invariant whenever its memory and code do. -/
theorem resetSatisfiesTheInvariant : Obligations.ResetSatisfiesTheInvariant :=
  inv_resetWith _ _ _ Memory.wf_reset (Nat.zero_le _) (Nat.zero_le _)

/-- Settles O15: the shape check bounds both parts of the image, and every word of code is an encoder's word. -/
theorem loadedCoreSatisfiesTheInvariant : Obligations.LoadedCoreSatisfiesTheInvariant := by
  intro capacity limit img text s hload
  obtain ⟨hwf, is, hdecode, rfl⟩ := load_eq_ready_iff.mp hload
  obtain ⟨data, records, hshape⟩ := exists_hasShape hwf
  have hlength : records.length = is.length := by
    simpa [hshape.imageCode_eq] using congrArg List.length (map_decodeElement_of_decodeElements hdecode)
  refine ⟨inv_resetWith _ _ _ (Memory.wf_ofCells _) ?_ ?_, fun w hw => ?_, rfl⟩
  · rw [Memory.ofCells_size, hshape.imageCells_eq, List.length_map]
    exact hshape.data_length
  · rw [List.length_map, ← hlength]
    exact hshape.records_length
  · obtain ⟨i, -, rfl⟩ := List.mem_map.mp hw
    exact ⟨i, decode_encode i⟩

/-- Settles O58: an image is well formed exactly when it has the shape. -/
theorem loadFaultExactlyForMalformedImages : Obligations.LoadFaultExactlyForMalformedImages := by
  intro capacity limit img text
  rw [load_eq_loadFault_iff]
  refine not_congr ⟨fun h => ?_, ?_⟩
  · obtain ⟨data, records, himage, hdata, hrecords, hdataOk, hrecordsOk⟩ := exists_hasShape h
    exact ⟨data, records, himage, hdata, hrecords, fun v hv => (inCellRange_iff v).mp (hdataOk v hv),
      fun r hr => (record_wellFormed_iff r).mp (hrecordsOk r hr)⟩
  · rintro ⟨data, records, himage, hdata, hrecords, hdataOk, hrecordsOk⟩
    exact HasShape.wellFormed ⟨himage, hdata, hrecords, fun v hv => (inCellRange_iff v).mpr (hdataOk v hv),
      fun r hr => (record_wellFormed_iff r).mpr (hrecordsOk r hr)⟩

/-- Settles O59: the written image has the shape, its cells are read back, and so are its records. -/
theorem imageRoundTrip : Obligations.ImageRoundTrip := by
  intro capacity limit cells is text hcells his
  obtain ⟨records, hrecords, hlength, hok⟩ := exists_records_eq_recordsFrom 0 is
  have hshape : HasShape (imageOf cells is) (cells.map BitVec.toInt) records := by
    refine ⟨?_, by simpa [maxWord] using hcells, by simpa [maxWord, hlength] using his, ?_, hok⟩
    · rw [imageOf, hrecords, List.length_map, List.map_map]
      rfl
    · exact List.forall_mem_map.mpr fun v _ => inCellRange_toInt v
  refine load_eq_ready_iff.mpr ⟨hshape.wellFormed, is, ?_, ?_⟩
  · rw [hshape.imageCode_eq, ← hrecords, decodeElements_recordsFrom]
  · rw [hshape.imageCells_eq, map_ofInt_toInt]

/-- Settles O57: the shape check fixes where the data ends, and the two parts of the image are read cell by cell and
record by record. -/
theorem loaderSplitsTheImage : Obligations.LoaderSplitsTheImage := by
  intro capacity limit img text s hload
  obtain ⟨hwf, is, hdecode, rfl⟩ := load_eq_ready_iff.mp hload
  obtain ⟨data, records, hshape⟩ := exists_hasShape hwf
  rw [hshape.imageCode_eq] at hdecode
  have hdecodeAll := map_decodeElement_of_decodeElements hdecode
  have hlength : records.length = is.length := by simpa using congrArg List.length hdecodeAll
  rw [hshape.imageCells_eq]
  refine ⟨data.length, data.map Element.cell ++ records.map Element.record, hshape.image, List.length_map _, ?size,
    fun i hi => ?cell, fun j hj => ?code, rfl⟩
  case size =>
    show (is.map encode).length + data.length = _
    simp only [List.length_map, List.length_append]
    omega
  case cell =>
    have hread := Memory.read_ofCells (data.map (BitVec.ofInt 32)) i (by rwa [List.length_map])
    rw [List.getElem_map] at hread
    refine ⟨_, ?_, hread⟩
    rw [toInt_ofInt_of_inCellRange (hshape.data_ok _ (List.getElem_mem hi)),
      List.getElem?_append_left (by rwa [List.length_map]), List.getElem?_map, List.getElem?_eq_getElem hi]
    rfl
  case code =>
    have hj' : j < is.length := by rwa [← List.length_map (f := encode)]
    have hjr : j < records.length := hlength ▸ hj'
    have hdecoded : decodeElement (.record records[j]) = .ok is[j] := by
      have hat := congrArg (·[j]?) hdecodeAll
      simpa [hj', hjr] using hat
    refine ⟨.record records[j], is[j], ?_, hdecoded, ?_⟩
    · rw [List.getElem?_append_right (by simp)]
      simp [hjr]
    · exact List.getElem?_eq_some_iff.mpr ⟨hj, List.getElem_map _⟩

/-- Settles O60: of the stop causes, three are clean. -/
theorem resultIsDefinedExactlyAfterCleanStops : Obligations.ResultIsDefinedExactlyAfterCleanStops := by
  intro lo hi s r
  unfold State.result
  cases hrun : s.runState with
  | running => simp
  | stopped c => cases c <;> simp [StopCause.isClean, eq_comm]

end
